-- ==== Sys2Proof/Word.lean ====
section
/-! DEFINITION. The word types of the block: the port and register widths of spec/00_scope.md (R5, R7, R10) and of
spec/30_encoding.md (R40). -/

namespace Sys2Proof

/-- A `u8`: one lane, one byte of an encoding (R7). -/
abbrev Byte := BitVec 8

/-- A `u64`, or the bit pattern of an `i64` (R5, R12). -/
abbrev U64 := BitVec 64

/-- A 9-lane byte vector: the 72-bit value of IN_BYTES and RES_BYTES (R10). -/
abbrev Lanes := BitVec 72

/-- The packed command record, 143 bits (R40). -/
abbrev Record := BitVec 143

end Sys2Proof
end

