-- ==== Sys2Proof/Config.lean ====
section
/-! DEFINITION. What an implementation fixes, and the free values: R5, R6 of spec/00_scope.md; I8 and I10 of
spec/93_implementation_defined.md. An opaque constant has no body that a proof can see, so whatever is proved holds for
every value of it. -/

namespace Sys2Proof

/-- WIDTH, the value width, fixed by R5. -/
def Config.width : Nat := 64

/-- MAXLEN, the length in bytes of the longest encoding, fixed by R5. -/
def Config.maxLen : Nat := 9

/-- LATENCY (R6, I8): how many clock cycles a command takes from its issuing edge to its completion, a finite number,
0 allowed, perhaps another for each op value. Left open by the spec: notes/assumptions/5.md. -/
opaque Config.latency : BitVec 3 → Nat

/-- What a byte source returns to a read that comes after it has answered EOF once (R74, I10): a byte (`some`) or EOF
(`none`), any value, a fresh one for each such read. A FREE VALUE, indexed by the counter `draws` of the state:
notes/assumptions/7.md. -/
opaque Config.freeRead : Nat → Option Byte

end Sys2Proof
end

