-- ==== Sys2Proof/Syntax.lean ====
section
/-! DEFINITION. The syntax: the commands of the block (one constructor per row of spec/opcode_table.json), the input
ports, and the host scripts of rule R55 of spec/30_encoding.md. -/

namespace Sys2Proof

/-- The commands of R41 with the operands that R43 gives each. A field of the command record that a command does not read
is no operand of it (R40: "don't care"). -/
inductive Instr where
  /-- op 0, R56: EncodedLength of `value`. -/
  | venclen (value : U64)
  /-- op 1, R59: Encode `value`. -/
  | venc (value : U64)
  /-- op 2, R63: DecodedLength of the first byte `b0 = lane(bytes, 0)`. -/
  | vdeclen (b0 : Byte)
  /-- op 3, R64: Decode from the front of the lanes, `avail` of them valid. -/
  | vdec (bytes : Lanes) (avail : BitVec 4)
  /-- op 4, R75: the canonical-form test of a first byte and a value. -/
  | vcheck (b0 : Byte) (value : U64)
  /-- op 5, R79: Zigzag of `value`, read as an i64 bit pattern. -/
  | zzenc (value : U64)
  /-- op 6, R81: Unzigzag of `value`. -/
  | zzdec (value : U64)
  /-- op 7, R46: the reserved command. -/
  | reserved
  deriving DecidableEq, Repr

/-- The status codes that have a name (R85). -/
inductive Status where
  /-- code 0, `OK`. -/
  | ok
  /-- code 1, UNEXPECTED_END_OF_INPUT, script name `UEOI` (R86). -/
  | unexpectedEndOfInput
  /-- code 2, NON_CANONICAL_ENCODING, script name `NONCANON` (R87). -/
  | nonCanonicalEncoding
  /-- code 3, END_OF_INPUT, script name `EOI` (R88): the host procedure HOST_READ alone gives it. -/
  | endOfInput
  /-- code 4, `ILLEGAL_OP` (R89). -/
  | illegalOp
  deriving DecidableEq, Repr

/-- What the host drives on the input ports at one rising edge of CLK (R22). CLK itself is the edge. -/
structure Ports where
  /-- RST, active high (R99). -/
  rst   : Bool
  /-- START (R102). -/
  start : Bool
  /-- IN_OP. -/
  op    : BitVec 3
  /-- IN_VALUE. -/
  value : U64
  /-- IN_BYTES. -/
  bytes : Lanes
  /-- IN_AVAIL. -/
  avail : BitVec 4
  deriving DecidableEq, Repr

/-- The registers the host can read (R14). -/
inductive ResultReg where
  | resValue
  | resBytes
  | resLen
  | resStatus
  | resValid
  | busy
  deriving DecidableEq, Repr

/-- A value operand of a script line (R55): a literal, or the shorthand `@val`, the host's HV. -/
inductive ValueArg where
  | lit (z : Int)
  | val
  deriving DecidableEq, Repr

/-- A byte-list operand (R55): a literal list, or the shorthand `@enc`, RES_BYTES with RES_LEN as its avail. -/
inductive BytesArg where
  | list (bs : List Byte)
  | enc
  deriving DecidableEq, Repr

/-- The avail position of a VDEC line (R55): left out, a literal in 0..15, or the shorthand `@len`, RES_LEN. -/
inductive AvailArg where
  | omitted
  | lit (a : BitVec 4)
  | len
  deriving DecidableEq, Repr

/-- A branch target (R55): a label, or `+k`, the statement `k` lines after the branch. A label's name is a number here:
R55 only ever compares labels for equality (notes/assumptions/9.md). -/
inductive Target where
  | label (name : Nat)
  | plus (k : Nat)
  deriving DecidableEq, Repr

/-- One statement of a host script (R55), and after those of R55 the three other things the spec lets a host do to the
block: present a packed command record (R40), drive the ports at one clock edge (R22, R99, R102), and read a register
(R21, R93, R103). Byte sources and buffers are named by their index in the host's lists. -/
inductive Stmt where
  /-- `VENCLEN v`. -/
  | venclen (v : ValueArg)
  /-- `VENC v`. -/
  | venc (v : ValueArg)
  /-- `VDECLEN b0`. -/
  | vdeclen (b0 : Byte)
  /-- `VDEC [b0,...]`, `VDEC [b0,...], a` and the forms with `@enc` and `@len`. -/
  | vdec (bytes : BytesArg) (avail : AvailArg)
  /-- `VCHECK b0, v`. -/
  | vcheck (b0 : Byte) (v : ValueArg)
  /-- `ZZENC s`. -/
  | zzenc (s : ValueArg)
  /-- `ZZDEC v`. -/
  | zzdec (v : ValueArg)
  /-- `BST code, target`. -/
  | bst (code : Status) (target : Target)
  /-- `BNST code, target`. -/
  | bnst (code : Status) (target : Target)
  /-- `B target`. -/
  | br (target : Target)
  /-- `HALT`. -/
  | halt
  /-- `HOST_READ src` (R71). -/
  | hostRead (src : Nat)
  /-- `APPEND buf, v` (R62). -/
  | append (buf : Nat) (v : ValueArg)
  /-- `SENC s`: `ZZENC s` then `VENC @val`. -/
  | senc (s : ValueArg)
  /-- `SDEC [bytes]`: `VDEC [bytes]`, then `BNST OK, +2`, then `ZZDEC @val`. -/
  | sdec (bytes : BytesArg)
  /-- One command given as its packed record (R40), serialised to bytes, the least significant first. -/
  | packed (record : List Byte)
  /-- The ports driven at one rising clock edge. -/
  | edge (ports : Ports)
  /-- One read of a register by the host. -/
  | read (reg : ResultReg)
  deriving DecidableEq, Repr

/-- One line of a script: `label:` (optional) and a statement (R55). -/
structure Line where
  label : Option Nat := none
  stmt  : Stmt
  deriving DecidableEq, Repr

/-- What is handed to the host before a run: a script, the bytes each byte source holds before its EOF (R70), and how
many growable buffers there are for APPEND, each empty (R62). -/
structure Program where
  script  : List Line
  sources : List (List Byte) := []
  buffers : Nat := 0
  deriving DecidableEq, Repr

end Sys2Proof
end

