-- ==== Sys2Proof/WellFormed.lean ====
section
/-! DEFINITION. When a host script is one that rule R55 of spec/30_encoding.md describes. A command of the block needs no
such check: its operand types are exactly the fields R40 gives, every op value selects a row (R42), and no operand
pattern is reserved (R49, R54). -/

namespace Sys2Proof

/-- A literal in an unsigned value position: a u64 (R55: negative literals stand in i64 operands only). -/
def ValueArg.wfUnsigned : ValueArg → Bool
  | .lit z => decide (0 ≤ z) && decide (z < 2 ^ 64)
  | .val => true

/-- A literal in an i64 position. -/
def ValueArg.wfSigned : ValueArg → Bool
  | .lit z => decide (-2 ^ 63 ≤ z) && decide (z < 2 ^ 63)
  | .val => true

/-- A byte list holds 0 to 9 bytes (R55). -/
def BytesArg.wf : BytesArg → Bool
  | .list bs => decide (bs.length ≤ 9)
  | .enc => true

/-- The operands of one statement are ones R55 allows. -/
def Stmt.wf : Stmt → Bool
  | .venclen v => v.wfUnsigned
  | .venc v => v.wfUnsigned
  | .vdeclen _ => true
  | .vdec bytes _ => bytes.wf
  | .vcheck _ v => v.wfUnsigned
  | .zzenc s => s.wfSigned
  | .zzdec v => v.wfUnsigned
  | .bst _ _ => true
  | .bnst _ _ => true
  | .br _ => true
  | .halt => true
  | .hostRead _ => true
  | .append _ v => v.wfUnsigned
  | .senc s => s.wfSigned
  | .sdec bytes => bytes.wf
  | .packed _ => true
  | .edge _ => true
  | .read _ => true

/-- The label a statement branches to, if it branches to one. -/
def Stmt.labelUsed : Stmt → Option Nat
  | .bst _ (.label l) => some l
  | .bnst _ (.label l) => some l
  | .br (.label l) => some l
  | _ => none

/-- The statement issues the reserved op 7: a packed record whose op field, the low three bits of its first byte, is 7,
or an edge, RST low, that starts op 7. "A model shall refuse a host script that issues it" (R46); R55 has no other way to write
it. -/
def Stmt.issuesReserved : Stmt → Bool
  | .packed (b :: _) => b.extractLsb' 0 3 == 7#3
  | .edge p => !p.rst && p.start && p.op == 7#3
  | _ => false

/-- The index of the byte source a statement reads. -/
def Stmt.sourceUsed : Stmt → Option Nat
  | .hostRead k => some k
  | _ => none

/-- The index of the buffer a statement appends to. -/
def Stmt.bufferUsed : Stmt → Option Nat
  | .append k _ => some k
  | _ => none

/-- The labels a script defines, in line order. -/
def labelsOf (script : List Line) : List Nat := script.filterMap Line.label

/-- No label is defined twice. -/
def Program.labelsDistinct (p : Program) : Bool := decide (labelsOf p.script).Nodup

/-- Every label branched to is defined. -/
def Program.labelsDefined (p : Program) : Bool :=
  p.script.all fun l => l.stmt.labelUsed.all fun n => (labelsOf p.script).contains n

/-- Every byte source and every buffer a statement names is there. -/
def Program.resourcesThere (p : Program) : Bool :=
  p.script.all fun l =>
    l.stmt.sourceUsed.all (fun k => decide (k < p.sources.length)) &&
    l.stmt.bufferUsed.all (fun k => decide (k < p.buffers))

/-- No line issues the reserved op (R46). -/
def Program.noReserved (p : Program) : Bool := p.script.all fun l => !l.stmt.issuesReserved

/-- A program the host may be given: all the checks above. -/
def Program.wf (p : Program) : Bool :=
  p.script.all (fun l => l.stmt.wf) && p.labelsDistinct && p.labelsDefined && p.resourcesThere && p.noReserved

end Sys2Proof
end

