-- ==== Sys2Proof/Decode.lean ====
section
/-! DEFINITION. The command encoding of spec/30_encoding.md part A (R40 to R47): the packed record, its decoder and its
encoder, the record's serialisation to bytes, and the lane access of R10 that the operand fields need. -/

namespace Sys2Proof

/-- `lane(B, i) = B[8*i+7 : 8*i]` (R10). -/
def lane (B : Lanes) (i : Nat) : Byte := B.extractLsb' (8 * i) 8

/-- The op field, record bits `[2:0]` (R40). -/
def recordOp (r : Record) : BitVec 3 := r.extractLsb' 0 3

/-- The value field, record bits `[66:3]` (R40). -/
def recordValue (r : Record) : U64 := r.extractLsb' 3 64

/-- The bytes field, record bits `[138:67]` (R40). -/
def recordBytes (r : Record) : Lanes := r.extractLsb' 67 72

/-- The avail field, record bits `[142:139]` (R40). -/
def recordAvail (r : Record) : BitVec 4 := r.extractLsb' 139 4

/-- The packed record of four port values (R40). -/
def packRecord (op : BitVec 3) (value : U64) (bytes : Lanes) (avail : BitVec 4) : Record :=
  avail ++ bytes ++ value ++ op

/-- What the block samples from the ports at an issuing edge (R102), as the packed record. -/
def Ports.record (p : Ports) : Record := packRecord p.op p.value p.bytes p.avail

/-- Decoding a record: the op field alone selects the row of R41 (R42), and the command takes the fields R43 names. -/
def decodeRecord (r : Record) : Instr :=
  match (recordOp r).toNat with
  | 0 => .venclen (recordValue r)
  | 1 => .venc (recordValue r)
  | 2 => .vdeclen (lane (recordBytes r) 0)
  | 3 => .vdec (recordBytes r) (recordAvail r)
  | 4 => .vcheck (lane (recordBytes r) 0) (recordValue r)
  | 5 => .zzenc (recordValue r)
  | 6 => .zzdec (recordValue r)
  | _ => .reserved

/-- The op value of a command (R41). -/
def opOf : Instr → BitVec 3
  | .venclen _ => 0b000#3
  | .venc _ => 0b001#3
  | .vdeclen _ => 0b010#3
  | .vdec _ _ => 0b011#3
  | .vcheck _ _ => 0b100#3
  | .zzenc _ => 0b101#3
  | .zzdec _ => 0b110#3
  | .reserved => 0b111#3

/-- The record of a command, its don't-care fields 0, as the host-script syntax drives them (R55). -/
def encode (i : Instr) : Record :=
  match i with
  | .venclen v => packRecord (opOf i) v 0#72 0#4
  | .venc v => packRecord (opOf i) v 0#72 0#4
  | .vdeclen b0 => packRecord (opOf i) 0#64 (b0.setWidth 72) 0#4
  | .vdec bytes avail => packRecord (opOf i) 0#64 bytes avail
  | .vcheck b0 v => packRecord (opOf i) v (b0.setWidth 72) 0#4
  | .zzenc v => packRecord (opOf i) v 0#72 0#4
  | .zzdec v => packRecord (opOf i) v 0#72 0#4
  | .reserved => packRecord (opOf i) 0#64 0#72 0#4

/-- The little-endian number a byte list forms. -/
def leList : List Byte → Nat
  | [] => 0
  | b :: bs => b.toNat + 256 * leList bs

/-- The `k` lowest bytes of a number, the least significant first. -/
def bytesLE : (k : Nat) → (n : Nat) → List Byte
  | 0, _ => []
  | k + 1, n => BitVec.ofNat 8 n :: bytesLE k (n / 256)

/-- Why a byte list is no packed command record. -/
inductive DecodeError where
  /-- fewer than the 18 bytes of a 143-bit record. -/
  | shortRecord
  /-- more than 18 bytes. -/
  | longRecord
  /-- bit 143, which "is always 0" (spec/95_test_vectors.md, packed command records), is 1. -/
  | bit143Set
  deriving DecidableEq, Repr

/-- Decoding the bytes of a packed record. The order of the bytes, the least significant first, is the model's
(DESIGN CHOICE, notes/assumptions/4.md): the spec numbers the record's bits and stores it nowhere. -/
def decodePacked (bs : List Byte) : Except DecodeError Instr :=
  if bs.length < 18 then .error .shortRecord
  else if 18 < bs.length then .error .longRecord
  else if 2 ^ 143 ≤ leList bs then .error .bit143Set
  else .ok (decodeRecord (BitVec.ofNat 143 (leList bs)))

/-- The 18 bytes of a command's packed record. -/
def encodePacked (i : Instr) : List Byte := bytesLE 18 (encode i).toNat

/-- The bytes of a word of spec/opcode_table.json: `nbits` of it count, the bits above are 0. -/
def tableWordBytes (nbits w : Nat) : List Byte :=
  if w % 2 ^ nbits < 2 ^ 144 then bytesLE 18 (w % 2 ^ nbits) else bytesLE 19 (w % 2 ^ nbits)

/-- The instruction this decoder reads from a word numbered as spec/opcode_table.json numbers its bits. -/
def decodeTableWord (nbits w : Nat) : Option Instr :=
  match decodePacked (tableWordBytes nbits w) with
  | .ok i => some i
  | .error _ => none

end Sys2Proof
end

