-- ==== Sys2Proof/Machine/State.lean ====
section
/-! DEFINITION. The state: the registers of spec/10_state.md (R14, R27), the host state of R55, R62, R70 and R110, and the
reasons a step stops. Plain data. -/

namespace Sys2Proof.Machine

/-- Why the machine stops with a fault. All three are safe: the model stops where the hardware's behaviour is unspecified. -/
inductive Fault where
  /-- READ_UNWRITTEN (R21, R103, I2, I3): the host read a result field that is UNWRITTEN, or any result field while
  RES_VALID = 0, or its own ST or HV while UNWRITTEN. Raised by the host reads of Machine/Ops.lean. Safe. -/
  | readUnwritten
  /-- PROTOCOL_VIOLATION (R104, I4): a START at an edge with BUSY = 1. Raised by the issue of a command. Safe. -/
  | protocolViolation
  /-- A status field held one of the codes 5, 6 and 7 that are never produced (I6). Raised by a host read of it. Safe. -/
  | brokenStatus
  deriving DecidableEq, Repr

/-- Why the model gives a step no meaning. Each is safe: no next state is claimed. None is raised by a command of the
block: all speak of a host script that R55 does not describe. -/
inductive Refusal where
  /-- Raised by an arm of `exec` that is not modelled yet: there is none. Safe. -/
  | notModelled (mnemonic : String)
  /-- Raised by the script step: the bytes of a packed record do not decode. Safe. -/
  | undecodableRecord (e : DecodeError)
  /-- Raised by the script step and by the load: a statement's operands are not ones R55 allows. Safe. -/
  | illFormedStatement
  /-- Raised by the script step and by the load: a branch to a label no line defines. Safe. -/
  | unknownLabel
  /-- Raised by the load: two lines define one label. Safe. -/
  | duplicateLabel
  /-- Raised by the script step and by the load: a byte source or a buffer that is not there. Safe. -/
  | unknownResource
  /-- Raised by the load: a script that issues the reserved op 7 (R46). Safe. -/
  | reservedOpInScript
  /-- Raised by the platform: an instance number that does not exist (R98). Safe. -/
  | unknownInstance
  deriving DecidableEq, Repr

/-- The command in flight (R27): the operands sampled at its START, and the clock edges left until it completes. -/
structure InFlight where
  record    : Record
  remaining : Nat
  deriving DecidableEq, Repr

/-- The registers of one `varint_core` (R14) and its one piece of hidden state (R27). `none` in a result register is the
spec's own value UNWRITTEN (R21). -/
structure Block where
  /-- RES_VALUE, 64 bits (R15). -/
  resValue  : Option U64
  /-- RES_BYTES, 72 bits (R16). -/
  resBytes  : Option Lanes
  /-- RES_LEN, 4 bits (R17). -/
  resLen    : Option (BitVec 4)
  /-- RES_STATUS, 3 bits (R18). -/
  resStatus : Option (BitVec 3)
  /-- RES_VALID, 1 bit (R19). -/
  resValid  : Bool
  /-- BUSY, 1 bit (R20). -/
  busy      : Bool
  /-- The command in flight (R27). -/
  inflight  : Option InFlight
  deriving DecidableEq, Repr

/-- Every register at its reset value (R28). -/
def Block.reset : Block :=
  { resValue := none, resBytes := none, resLen := none, resStatus := none,
    resValid := false, busy := false, inflight := none }

/-- A host-side byte source (R70): the bytes still to come before its EOF, how many bytes have been consumed from it
(R110), and whether it has answered EOF. R70 does not say that a source ever answers EOF; here what is still to come is a
finite list, so an EOF always comes and an endless source is not shown (DESIGN CHOICE, notes/assumptions/26.md). -/
structure ByteSource where
  data     : List Byte
  consumed : Nat
  ended    : Bool
  deriving DecidableEq, Repr

/-- The host that drives the block: what R55, R62, R70 and R110 give it. `none` in `st` and `hv` is UNWRITTEN. -/
structure HostSide where
  /-- The script being run (R55). -/
  script  : List Line
  /-- `hpc`, the script index (R55). -/
  hpc     : Nat
  /-- `ST` (R55), a status code. -/
  st      : Option (BitVec 3)
  /-- `HV` (R55). -/
  hv      : Option U64
  /-- The byte sources HOST_READ reads (R70). -/
  sources : List ByteSource
  /-- The growable sequences APPEND extends (R62). -/
  buffers : List (List Byte)
  /-- What the last `read` statement returned (the model's own: notes/assumptions/8.md). -/
  lastRead : Option Nat
  /-- How many free values have been drawn (the model's own: notes/assumptions/7.md). -/
  draws   : Nat
  deriving DecidableEq, Repr

/-- The host before anything is loaded: "`ST` and `HV` are UNWRITTEN, and `hpc` = 0" (spec/95_test_vectors.md part L3). -/
def HostSide.fresh : HostSide :=
  { script := [], hpc := 0, st := none, hv := none, sources := [], buffers := [], lastRead := none, draws := 0 }

/-- The machine: one instance of the block, and its host. -/
structure State where
  block : Block
  host  : HostSide
  deriving DecidableEq, Repr

/-- The machine right after reset (R28, R100), which is also its state before the first RST (R101). -/
def State.reset : State := { block := Block.reset, host := HostSide.fresh }

/-- The three outcomes of a step, at this model's types. -/
abbrev Result := Host.Outcome State Fault Refusal

end Sys2Proof.Machine
end

