-- ==== Sys2Proof/Machine/Operands.lean ====
section
/-! DEFINITION. The operators and operand forms the command rules use: R8, R9, R10, R12, R44 and R56 (`ntag`). -/

namespace Sys2Proof.Machine

/-- The least `i < n` with `p i`, or `n` where there is none. -/
def leastBelow (p : Nat → Bool) : Nat → Nat
  | 0 => 0
  | n + 1 =>
    if leastBelow p n < n then leastBelow p n
    else if p n then n else n + 1

/-- `tz8(b)`: the index of the least significant set bit, and `tz8(0) = 8` (R9). -/
def tz8 (b : Byte) : Nat := leastBelow (fun i => b.getLsbD i) 8

/-- `clz64(v)`: the number of leading zero bits, and `clz64(0) = 64` (R9). -/
def clz64 (v : U64) : Nat := leastBelow (fun i => v.getLsbD (63 - i)) 64

/-- `ntag(v)`: "the least k in [0,7] with v < 2^(7*(k+1)), if v < 2^56; 8, otherwise" (R56). -/
def ntag (v : U64) : Nat := leastBelow (fun k => decide (v.toNat < 2 ^ (7 * (k + 1)))) 8

/-- `a << k`, mod 2^64 (R8). Every shift amount of the spec is in `[0, 63]` (R107). -/
def shl (a : U64) (k : Nat) : U64 := a <<< k

/-- `a >> k`, logical (R8). -/
def shr (a : U64) (k : Nat) : U64 := a >>> k

/-- `a >>a k`, arithmetic, `a` read as an i64 (R8, R12). -/
def sar (a : U64) (k : Nat) : U64 := a.sshiftRight k

/-- `le_word(B, lo, k)`: the little-endian number of the `k` lanes from lane `lo` on (R10). -/
def leWord (B : Lanes) (lo : Nat) : Nat → Nat
  | 0 => 0
  | k + 1 => leWord B lo k + (lane B (lo + k)).toNat * 2 ^ (8 * k)

/-- `avail_eff = min(IN_AVAIL, 9)` (R44). -/
def availEff (a : BitVec 4) : Nat := min a.toNat 9

/-- The lanes a byte list drives: lane `i` is byte `i`, the other lanes `0x00` (R55). -/
def lanesOf (bs : List Byte) : Lanes := BitVec.ofNat 72 (leList bs)

/-- The first `k` lanes as a byte list. -/
def lanesTake (B : Lanes) (k : Nat) : List Byte := (List.range k).map (lane B)

/-- The lanes of the encoding with tag `n`: R59's two explicit branches (R108). -/
def encodeLanes (v : U64) (n : Nat) : Lanes :=
  if n < 8 then (shl (shl v 1 ||| 1#64) n).setWidth 72
  else v ++ 0x00#8

/-- The value of an encoding with tag `n` at the front of the lanes: R64's two explicit branches (R108), and only the
lanes of the encoding take part (R65). -/
def decodeValue (B : Lanes) (n : Nat) : U64 :=
  if n < 8 then shr (BitVec.ofNat 64 (leWord B 0 (n + 1))) (n + 1)
  else BitVec.ofNat 64 (leWord B 1 8)

/-- R79's formula: `(s << 1) XOR (s >>a 63)`. -/
def zigzag (s : U64) : U64 := shl s 1 ^^^ sar s 63

/-- R81's formula: `(u >> 1) XOR (0 - (u & 1))`. -/
def unzigzag (u : U64) : U64 := shr u 1 ^^^ (0#64 - (u &&& 1#64))

end Sys2Proof.Machine
end

