-- ==== Sys2Proof/Machine/Flags.lean ====
section
/-! DEFINITION. The block has no flags (R25): its one condition indication is RES_STATUS. The codes of R85, and the test
that decides between OK and NON_CANONICAL_ENCODING (R76). -/

namespace Sys2Proof.Machine

/-- The numeric status codes (R85). -/
def statusCode : Status → BitVec 3
  | .ok => 0#3
  | .unexpectedEndOfInput => 1#3
  | .nonCanonicalEncoding => 2#3
  | .endOfInput => 3#3
  | .illegalOp => 4#3

/-- `canon_reject(b0, v) = (tz8(b0) != 0) and (v < 2^(7 * tz8(b0)))`, exact on naturals (R76). -/
def canonReject (b0 : Byte) (v : U64) : Bool :=
  decide (tz8 b0 ≠ 0) && decide (v.toNat < 2 ^ (7 * tz8 b0))

end Sys2Proof.Machine
end

