-- ==== Sys2Proof/Machine/Ops.lean ====
section
/-! DEFINITION. The named operations every command and every host statement is written with: what a command leaves in the
result registers, the issue of a command, the error of a command, the host's reads, and a byte source's read. -/

namespace Sys2Proof.Machine

/-- What a command leaves: its status and the value results it writes. A result it does not write becomes UNWRITTEN
(R21, R23), and nothing else of a command survives it (R13). -/
structure Results where
  status : Status
  value  : Option U64 := none
  bytes  : Option Lanes := none
  len    : Option (BitVec 4) := none
  deriving DecidableEq, Repr

/-- `raise S` (R11, R84), the block's only form of exception: the status is `S` and every value result is UNWRITTEN.
Nothing else is recorded (R90), no state is saved and nothing is entered (R94). -/
def raise (st : Status) : Results := { status := st }

/-- The registers at a command's completion: all its results at once, the rest UNWRITTEN, RES_VALID 1, BUSY 0 (R19, R34,
R102). -/
def Results.toBlock (r : Results) : Block :=
  { resValue := r.value, resBytes := r.bytes, resLen := r.len, resStatus := some (statusCode r.status),
    resValid := true, busy := false, inflight := none }

/-- A command as one atomic step from its issuing edge to its completion (R102): it is issued at an edge with BUSY = 0,
and a START with BUSY = 1 is the protocol violation of R104. -/
def issue (r : Results) (s : State) : Result :=
  if s.block.busy then .fault .protocolViolation
  else .next { s with block := r.toBlock }

/-- Go on from a next state; a fault or a refusal ends it. -/
def andThen (o : Result) (k : State → Result) : Result :=
  match o with
  | .next s => k s
  | .fault f => .fault f
  | .refused r => .refused r

/-- Go on with a value the host has read; a fault ends it. -/
def withRead {α : Type} (o : Except Fault α) (k : α → Result) : Result :=
  match o with
  | .ok a => k a
  | .error f => .fault f

/-- A field that holds a value, or the fault of reading an UNWRITTEN one (R21). -/
def readField {α : Type} (f : Option α) : Except Fault α :=
  match f with
  | some a => .ok a
  | none => .error .readUnwritten

/-- A host read of a result field: a fault while RES_VALID = 0 and a fault where the field is UNWRITTEN (R21, R103). -/
def readResult {α : Type} (b : Block) (f : Option α) : Except Fault α :=
  if b.resValid then readField f else .error .readUnwritten

/-- A status code that a read delivers: 5, 6 and 7 are never produced, and reading one is a fault (I6). -/
def checkStatus (c : BitVec 3) : Except Fault (BitVec 3) :=
  if 5 ≤ c.toNat then .error .brokenStatus else .ok c

/-- A host read of RES_STATUS. -/
def readStatus (b : Block) : Except Fault (BitVec 3) :=
  match readResult b b.resStatus with
  | .ok c => checkStatus c
  | .error f => .error f

/-- A host read of its own ST (R55). -/
def readST (h : HostSide) : Except Fault (BitVec 3) :=
  match readField h.st with
  | .ok c => checkStatus c
  | .error f => .error f

/-- A host read of any register of R14, as a number. RES_VALID and BUSY always hold a value (R14, R93). -/
def readReg (b : Block) : ResultReg → Except Fault Nat
  | .resValue => (readResult b b.resValue).map BitVec.toNat
  | .resBytes => (readResult b b.resBytes).map BitVec.toNat
  | .resLen => (readResult b b.resLen).map BitVec.toNat
  | .resStatus => (readStatus b).map BitVec.toNat
  | .resValid => .ok b.resValid.toNat
  | .busy => .ok b.busy.toNat

/-- What the host keeps of a block command: `ST = RES_STATUS`, `HV = RES_VALUE` (R55). Copying an UNWRITTEN field is no
read of it: the copy is UNWRITTEN too. -/
def afterCommand (s : State) : State :=
  { s with host := { s.host with st := s.block.resStatus, hv := s.block.resValue } }

/-- The host's ST and HV set to a status and a value (or to UNWRITTEN). -/
def setHostResult (st : Status) (v : Option U64) (s : State) : State :=
  { s with host := { s.host with st := some (statusCode st), hv := v } }

/-- `MemRead(src, 1)` of one source (R70): the byte read, or `none` for EOF, the source after it, and whether a free value
was drawn. A byte is consumed, an EOF consumes nothing. What a source returns after it has answered EOF is its own
business (R74, I10): `free`. -/
def memRead (free : Option Byte) (src : ByteSource) : Option Byte × ByteSource × Bool :=
  if src.ended then
    match free with
    | some b => (some b, { src with consumed := src.consumed + 1 }, true)
    | none => (none, src, true)
  else
    match src.data with
    | [] => (none, { src with ended := true }, false)
    | b :: bs => (some b, { src with data := bs, consumed := src.consumed + 1 }, false)

/-- `MemRead` of the host's source number `k`; `none` where there is no such source. `free` gives the value of the next
draw, `draws` counts them. -/
def hostMemRead (free : Nat → Option Byte) (k : Nat) (h : HostSide) : Option (Option Byte × HostSide) :=
  match h.sources[k]? with
  | none => none
  | some src =>
    let (r, src', drawn) := memRead (free h.draws) src
    some (r, { h with sources := h.sources.set k src', draws := h.draws + drawn.toNat })

end Sys2Proof.Machine
end

