-- ==== Sys2Proof/Machine/Decoder.lean ====
section
/-! DEFINITION. The unit varint_decoder: VDECLEN and VDEC (spec/41_varint_decoder.md). -/

namespace Sys2Proof.Machine

/-- R63's pseudocode: RES_LEN and an OK status; IN_AVAIL is not read. -/
def vdeclenResults (b0 : Byte) : Results :=
  { status := .ok, len := some (BitVec.ofNat 4 (tz8 b0 + 1)) }

/-- VDECLEN, DecodedLength (R63). -/
def execVdeclen (b0 : Byte) (s : State) : Result := issue (vdeclenResults b0) s

/-- R64's pseudocode, its checks in the order of R91. -/
def vdecResults (bytes : Lanes) (avail : BitVec 4) : Results :=
  let m := availEff avail
  let b0 := lane bytes 0
  let n := tz8 b0
  if m = 0 then raise .unexpectedEndOfInput
  else if m < n + 1 then raise .unexpectedEndOfInput
  else if canonReject b0 (decodeValue bytes n) then raise .nonCanonicalEncoding
  else { status := .ok, value := some (decodeValue bytes n) }

/-- VDEC, Decode (R64). -/
def execVdec (bytes : Lanes) (avail : BitVec 4) (s : State) : Result := issue (vdecResults bytes avail) s

end Sys2Proof.Machine
end

