-- ==== Sys2Proof/Machine/Encoder.lean ====
section
/-! DEFINITION. The unit varint_encoder: VENCLEN and VENC (spec/40_varint_encoder.md). -/

namespace Sys2Proof.Machine

/-- R56's pseudocode: RES_LEN and an OK status. -/
def venclenResults (v : U64) : Results :=
  { status := .ok, len := some (BitVec.ofNat 4 (ntag v + 1)) }

/-- VENCLEN, EncodedLength (R56). -/
def execVenclen (v : U64) (s : State) : Result := issue (venclenResults v) s

/-- R59's pseudocode: the nine lanes, RES_LEN and an OK status. -/
def vencResults (v : U64) : Results :=
  { status := .ok, bytes := some (encodeLanes v (ntag v)), len := some (BitVec.ofNat 4 (ntag v + 1)) }

/-- VENC, Encode (R59). -/
def execVenc (v : U64) (s : State) : Result := issue (vencResults v) s

end Sys2Proof.Machine
end

