-- ==== Sys2Proof/Machine/Reserved.lean ====
section
/-! DEFINITION. The reserved op 7 (R46 of spec/30_encoding.md, R89 of spec/60_exceptions.md). -/

namespace Sys2Proof.Machine

/-- The reserved command has the effect R46 gives it and no other: RES_STATUS is ILLEGAL_OP, every other result
UNWRITTEN, RES_VALID 1. That a host script must not issue it is checked where a script is loaded (`loadProgram`):
notes/assumptions/1.md. -/
def execReserved (s : State) : Result := issue (raise .illegalOp) s

end Sys2Proof.Machine
end

