-- ==== Sys2Proof/Machine/Validator.lean ====
section
/-! DEFINITION. The unit varint_canonical_validator: VCHECK (spec/42_canonical_validator.md). -/

namespace Sys2Proof.Machine

/-- R75's pseudocode: the status alone. -/
def vcheckResults (b0 : Byte) (v : U64) : Results :=
  if canonReject b0 v then raise .nonCanonicalEncoding else { status := .ok }

/-- VCHECK, the validation step of Decode (R75). -/
def execVcheck (b0 : Byte) (v : U64) (s : State) : Result := issue (vcheckResults b0 v) s

end Sys2Proof.Machine
end

