-- ==== Sys2Proof/Machine/Zigzag.lean ====
section
/-! DEFINITION. The units zigzag_encoder and zigzag_decoder: ZZENC and ZZDEC (spec/43_zigzag.md). -/

namespace Sys2Proof.Machine

/-- R79's pseudocode. -/
def zzencResults (v : U64) : Results := { status := .ok, value := some (zigzag v) }

/-- ZZENC, Zigzag (R79). -/
def execZzenc (v : U64) (s : State) : Result := issue (zzencResults v) s

/-- R81's pseudocode. -/
def zzdecResults (u : U64) : Results := { status := .ok, value := some (unzigzag u) }

/-- ZZDEC, Unzigzag (R81). -/
def execZzdec (u : U64) (s : State) : Result := issue (zzdecResults u) s

end Sys2Proof.Machine
end

