-- ==== Sys2Proof/Machine/Dispatch.lean ====
section
/-! DEFINITION. One command: each constructor of Instr goes to its meaning. -/

namespace Sys2Proof.Machine

/-- What a command does, from its issuing edge to its completion (R102). -/
def exec (i : Instr) (s : State) : Host.Outcome State Fault Refusal :=
  match i with
  | .venclen v => Sys2Proof.Machine.execVenclen v s
  | .venc v => Sys2Proof.Machine.execVenc v s
  | .vdeclen b0 => Sys2Proof.Machine.execVdeclen b0 s
  | .vdec bytes avail => Sys2Proof.Machine.execVdec bytes avail s
  | .vcheck b0 v => Sys2Proof.Machine.execVcheck b0 v s
  | .zzenc v => Sys2Proof.Machine.execZzenc v s
  | .zzdec v => Sys2Proof.Machine.execZzdec v s
  | .reserved => Sys2Proof.Machine.execReserved s

end Sys2Proof.Machine
end

