-- ==== Sys2Proof/Machine/Clock.lean ====
section
/-! DEFINITION. The block at the level of single rising clock edges: reset (R99), the command protocol with its parameter
LATENCY (R102, R104, R109), BUSY and RES_VALID (R19, R20). The atomic command of Machine/Ops.lean is this, seen from the
issuing edge to the completion. -/

namespace Sys2Proof.Machine

/-- The command in flight completes: it writes its results as the atomic command does (R102). -/
def completeInFlight (f : InFlight) (s : State) : Result :=
  exec (decodeRecord f.record) { s with block := { s.block with busy := false, inflight := none } }

/-- A clock edge with a command in flight and no START: it completes when its last cycle is over (R102). -/
def tick (s : State) : Result :=
  if s.block.busy then
    match s.block.inflight with
    | none => .next s
    | some f =>
      match f.remaining with
      | 0 => completeInFlight f s
      | 1 => completeInFlight f s
      | n + 2 => .next { s with block := { s.block with inflight := some { f with remaining := n + 1 } } }
  else .next s

/-- A command's issuing edge (R102): the operands are sampled, RES_VALID falls, BUSY rises if LATENCY > 0; with
LATENCY = 0 the command completes at this very edge. -/
def startEdge (lat : BitVec 3 → Nat) (p : Ports) (s : State) : Result :=
  if s.block.busy then .fault .protocolViolation
  else
    match lat p.op with
    | 0 => exec (decodeRecord p.record) s
    | n + 1 => .next { s with block := { s.block with
        resValid := false, busy := true, inflight := some { record := p.record, remaining := n + 1 } } }

/-- One rising edge of CLK with the ports as driven. RST comes first: a START in the same cycle is ignored and a command
in flight is abandoned (R99). `lat` is LATENCY. -/
def clockEdge (lat : BitVec 3 → Nat) (p : Ports) (s : State) : Result :=
  if p.rst then .next { s with block := Block.reset }
  else if p.start then startEdge lat p s
  else tick s

/-- Several edges one after the other. -/
def clockEdges (lat : BitVec 3 → Nat) : List Ports → State → Result
  | [], s => .next s
  | p :: ps, s => andThen (clockEdge lat p s) (clockEdges lat ps)

/-- Ports at which nothing is asked of the block. -/
def idlePorts : Ports := { rst := false, start := false, op := 0, value := 0, bytes := 0, avail := 0 }

end Sys2Proof.Machine
end

