-- ==== Sys2Proof/Machine/Script.lean ====
section
/-! DEFINITION. The host: the statements of a host script (R55), the stream read HOST_READ (R71), APPEND (R62), SENC and
SDEC, and the load of a program. -/

namespace Sys2Proof.Machine

/-- The value of a value operand; `@val` is a read of HV (R55). -/
def valueOf (v : ValueArg) (s : State) : Except Fault U64 :=
  match v with
  | .lit z => .ok (BitVec.ofInt 64 z)
  | .val => readField s.host.hv

/-- The lanes and the avail a byte-list operand stands for; `@enc` reads RES_BYTES and RES_LEN (R55). -/
def bytesOf (b : BytesArg) (s : State) : Except Fault (Lanes × BitVec 4) :=
  match b with
  | .list bs => .ok (lanesOf bs, BitVec.ofNat 4 bs.length)
  | .enc =>
    match readResult s.block s.block.resBytes, readResult s.block s.block.resLen with
    | .ok B, .ok L => .ok (B, L)
    | .error f, _ => .error f
    | .ok _, .error f => .error f

/-- The avail a VDEC line drives: the byte list's own where the position is left out (R55). -/
def availOf (a : AvailArg) (own : BitVec 4) (s : State) : Except Fault (BitVec 4) :=
  match a with
  | .omitted => .ok own
  | .lit n => .ok n
  | .len => readResult s.block s.block.resLen

/-- One START of the host with the record's fields on the ports, and ST and HV after it (R40, R55). -/
def hostCommand (r : Record) (s : State) : Result :=
  andThen (exec (decodeRecord r) s) fun t => .next (afterCommand t)

/-- A command whose one operand is a value: `op` and `value` driven, the rest 0 (R55). -/
def valueCommand (op : BitVec 3) (v : ValueArg) (s : State) : Result :=
  withRead (valueOf v s) fun x => hostCommand (packRecord op x 0#72 0#4) s

/-- A VDEC line (R55). -/
def vdecCommand (b : BytesArg) (a : AvailArg) (s : State) : Result :=
  withRead (bytesOf b s) fun (B, own) =>
    withRead (availOf a own s) fun m => hostCommand (packRecord 0b011#3 0#64 B m) s

/-- The next `k` bytes of a source, or `none` where EOF came first; the host with what was consumed (R71). -/
def readBytes (free : Nat → Option Byte) (src : Nat) : (k : Nat) → HostSide → Option (Option (List Byte) × HostSide)
  | 0, h => some (some [], h)
  | k + 1, h =>
    match hostMemRead free src h with
    | none => none
    | some (none, h') => some (none, h')
    | some (some b, h') =>
      match readBytes free src k h' with
      | none => none
      | some (none, h'') => some (none, h'')
      | some (some bs, h'') => some (some (b :: bs), h'')

/-- HOST_READ's last part: VDEC over the bytes read, with exactly their number as avail, and `H_STATUS`, `H_VALUE` from
its results (R71). -/
def hostReadDecode (bs : List Byte) (s : State) : Result :=
  hostCommand (packRecord 0b011#3 0#64 (lanesOf bs) (BitVec.ofNat 4 bs.length)) s

/-- HOST_READ after its first byte: VDECLEN gives the length, and that many bytes less one are read (R71, R72). -/
def hostReadRest (free : Nat → Option Byte) (src : Nat) (b0 : Byte) (s : State) : Result :=
  andThen (hostCommand (packRecord 0b010#3 0#64 (lanesOf [b0]) 0#4) s) fun t =>
    withRead (readResult t.block t.block.resLen) fun L =>
      match readBytes free src (L.toNat - 1) t.host with
      | none => .refused .unknownResource
      | some (none, h) => .next (setHostResult .unexpectedEndOfInput none { t with host := h })
      | some (some bs, h) => hostReadDecode (b0 :: bs) { t with host := h }

/-- HOST_READ (R71): EOF at the first read is END_OF_INPUT, with no command issued; EOF at a later one is
UNEXPECTED_END_OF_INPUT (R72). -/
def hostReadStmt (free : Nat → Option Byte) (src : Nat) (s : State) : Result :=
  match hostMemRead free src s.host with
  | none => .refused .unknownResource
  | some (none, h) => .next (setHostResult .endOfInput none { s with host := h })
  | some (some b0, h) => hostReadRest free src b0 { s with host := h }

/-- APPEND (R62): VENC, then lanes `0` to `RES_LEN - 1` of RES_BYTES go to the end of the buffer, in lane order. -/
def appendStmt (buf : Nat) (v : ValueArg) (s : State) : Result :=
  match s.host.buffers[buf]? with
  | none => .refused .unknownResource
  | some old =>
    andThen (valueCommand 0b001#3 v s) fun t =>
      withRead (bytesOf .enc t) fun (B, L) =>
        .next { t with host := { t.host with buffers := t.host.buffers.set buf (old ++ lanesTake B L.toNat) } }

/-- SENC: `ZZENC s` then `VENC @val` (R55). -/
def sencStmt (v : ValueArg) (s : State) : Result :=
  andThen (valueCommand 0b101#3 v s) (valueCommand 0b001#3 .val)

/-- SDEC: `VDEC [bytes]`, then `BNST OK, +2`, then `ZZDEC @val` (R55). -/
def sdecStmt (b : BytesArg) (s : State) : Result :=
  andThen (vdecCommand b .omitted s) fun t =>
    withRead (readST t.host) fun c =>
      if c ≠ statusCode .ok then .next t else valueCommand 0b110#3 .val t

/-- The index of the first line that defines a label. -/
def findLabel (script : List Line) (l : Nat) : Option Nat :=
  script.findIdx? fun line => line.label == some l

/-- The host goes on at line `n`. -/
def setHpc (n : Nat) (s : State) : State := { s with host := { s.host with hpc := n } }

/-- The host goes on at the next line. -/
def advance (s : State) : State := setHpc (s.host.hpc + 1) s

/-- A branch taken (R55). -/
def branch (t : Target) (s : State) : Result :=
  match t with
  | .plus k => .next (setHpc (s.host.hpc + k) s)
  | .label l =>
    match findLabel s.host.script l with
    | some n => .next (setHpc n s)
    | none => .refused .unknownLabel

/-- `BST` (`sense` true) and `BNST` (`sense` false): the branch is taken when `ST = code` is `sense` (R55). -/
def branchOnStatus (sense : Bool) (code : Status) (t : Target) (s : State) : Result :=
  withRead (readST s.host) fun c =>
    if decide (c = statusCode code) = sense then branch t s else .next (advance s)

/-- One command as its packed record (R40). -/
def packedStmt (bs : List Byte) (s : State) : Result :=
  match decodePacked bs with
  | .ok i => andThen (exec i s) fun t => .next (afterCommand t)
  | .error e => .refused (.undecodableRecord e)

/-- One host read of a register (R21, R93, R103). -/
def readStmt (r : ResultReg) (s : State) : Result :=
  withRead (readReg s.block r) fun n => .next { s with host := { s.host with lastRead := some n } }

/-- The effect of a statement that goes on at the next line, before it does. -/
def stmtEffect (lat : BitVec 3 → Nat) (free : Nat → Option Byte) (x : Stmt) (s : State) : Result :=
  match x with
  | .venclen v => valueCommand 0b000#3 v s
  | .venc v => valueCommand 0b001#3 v s
  | .vdeclen b0 => hostCommand (packRecord 0b010#3 0#64 (lanesOf [b0]) 0#4) s
  | .vdec bytes avail => vdecCommand bytes avail s
  | .vcheck b0 v => withRead (valueOf v s) fun x => hostCommand (packRecord 0b100#3 x (lanesOf [b0]) 0#4) s
  | .zzenc v => valueCommand 0b101#3 v s
  | .zzdec v => valueCommand 0b110#3 v s
  | .hostRead src => hostReadStmt free src s
  | .append buf v => appendStmt buf v s
  | .senc v => sencStmt v s
  | .sdec bytes => sdecStmt bytes s
  | .packed bs => packedStmt bs s
  | .edge p => clockEdge lat p s
  | .read r => readStmt r s
  | .bst _ _ => .next s
  | .bnst _ _ => .next s
  | .br _ => .next s
  | .halt => .next s

/-- One statement of the script (R55). HALT ends the script: the host stays there, and what is left is an edge at which
nothing is asked of the block. -/
def runStmt (lat : BitVec 3 → Nat) (free : Nat → Option Byte) (x : Stmt) (s : State) : Result :=
  if x.wf then
    match x with
    | .halt => tick s
    | .br t => branch t s
    | .bst code t => branchOnStatus true code t s
    | .bnst code t => branchOnStatus false code t s
    | _ => andThen (stmtEffect lat free x s) fun t => .next (advance t)
  else .refused .illFormedStatement

/-- The statement the host is at, if the script has not run past its last (R110). -/
def currentStmt (s : State) : Option Stmt := (s.host.script[s.host.hpc]?).map Line.stmt

/-- One step of the host and its block, LATENCY and the free values given. Past the last statement the script has ended
(R110): the edge passes with nothing asked of the block. -/
def stepWith (lat : BitVec 3 → Nat) (free : Nat → Option Byte) (s : State) : Result :=
  match currentStmt s with
  | none => tick s
  | some x => runStmt lat free x s

/-- Why a program is not one the host may be given, if so (R46, R55). -/
def programProblem (p : Program) : Option Refusal :=
  if !p.script.all (fun l => l.stmt.wf) then some .illFormedStatement
  else if !p.labelsDistinct then some .duplicateLabel
  else if !p.labelsDefined then some .unknownLabel
  else if !p.resourcesThere then some .unknownResource
  else if !p.noReserved then some .reservedOpInScript
  else none

/-- A program is handed to the host from outside: the host starts at line 0 with ST and HV UNWRITTEN
(spec/95_test_vectors.md part L3); the block is left as it is, and so is the count of draws. A script that issues op 7 is refused (R46). -/
def loadProgram (p : Program) (s : State) : Result :=
  match programProblem p with
  | some r => .refused r
  | none => .next { s with host := { HostSide.fresh with
      script := p.script,
      sources := p.sources.map fun bs => { data := bs, consumed := 0, ended := false },
      buffers := List.replicate p.buffers [],
      draws := s.host.draws } }

/-- A script with line `n` set; lines missing below it are filled with HALT. -/
def setLine : List Line → Nat → Line → List Line
  | [], 0, l => [l]
  | _ :: xs, 0, l => l :: xs
  | [], n + 1, l => { stmt := .halt } :: setLine [] n l
  | x :: xs, n + 1, l => x :: setLine xs n l

end Sys2Proof.Machine
end

