-- ==== Sys2Proof/Machine/Step.lean ====
section
/-! DEFINITION. One step of the machine, and where it fetches its next command. -/

namespace Sys2Proof.Machine

/-- One step: the host statement at `hpc`, LATENCY and the free values the implementation's own. -/
def step : State → Host.Outcome State Fault Refusal := stepWith Config.latency Config.freeRead

/-- The command of a word of spec/opcode_table.json placed as the statement at `hpc`, as its packed record: the next step
issues it. -/
def State.withFetchWord (s : State) (nbits w : Nat) : State :=
  { s with host := { s.host with
      script := setLine s.host.script s.host.hpc { stmt := .packed (tableWordBytes nbits w) } } }

end Sys2Proof.Machine
end

