-- ==== Sys2Proof/Machine/Platform.lean ====
section
/-! DEFINITION. A platform of any number of instances, each with its own host (R6 INSTANCES, R37, R98): the instances
share nothing, so a platform is a list of machines. Each instance has a LATENCY and byte sources of its own (R6, R74): `lat k`
and `free k` are those of instance `k`. The spec does not say what a platform does once one instance's step has faulted or
is refused: the model ends the run of the whole platform there (DESIGN CHOICE, notes/assumptions/25.md). -/

namespace Sys2Proof.Machine

/-- Instance number `k` of a platform makes one step; the others stay as they are (R98). Where that step faults or is
refused, so does the platform, and no state of the other instances is answered (DESIGN CHOICE, notes/assumptions/25.md). -/
def platformStep (lat : Nat → BitVec 3 → Nat) (free : Nat → Nat → Option Byte) (k : Nat) (p : List State) :
    Host.Outcome (List State) Fault Refusal :=
  match p[k]? with
  | none => .refused .unknownInstance
  | some s =>
    match stepWith (lat k) (free k) s with
    | .next t => .next (p.set k t)
    | .fault f => .fault f
    | .refused r => .refused r

/-- Instances step in the order of a schedule, to its end or to the first step that faults or is refused, which ends the run
for every instance (DESIGN CHOICE, notes/assumptions/25.md). -/
def platformRun (lat : Nat → BitVec 3 → Nat) (free : Nat → Nat → Option Byte) :
    List Nat → List State → Host.Outcome (List State) Fault Refusal
  | [], p => .next p
  | k :: ks, p =>
    match platformStep lat free k p with
    | .next q => platformRun lat free ks q
    | .fault f => .fault f
    | .refused r => .refused r

end Sys2Proof.Machine
end

