-- ==== Sys2Proof/Machine/Wire.lean ====
section
/-! DEFINITION. The wire format of spec/30_encoding.md part B on byte sequences of any length, apart from the block that
codes it: the classes of R54, and the bits of R50 and R51. -/

namespace Sys2Proof.Machine

/-- The class of a byte sequence (R54). -/
inductive WireClass where
  /-- classes 1 and 2, UNEXPECTED_END_OF_INPUT. -/
  | truncated
  /-- class 3, NON_CANONICAL_ENCODING. -/
  | nonCanonical
  /-- class 4: the canonical encoding of `v`, and the bytes after it. -/
  | valid (v : Nat) (rest : List Byte)
  deriving DecidableEq, Repr

/-- The value of the encoding of tag `n` that `E` is (R50 for `n < 8`, R51 for `n = 8`), a natural number. -/
def wireValue (n : Nat) (E : List Byte) : Nat :=
  if n < 8 then leList E / 2 ^ (n + 1) else leList (E.drop 1)

/-- R54: every byte sequence falls into exactly one class, checked in this order. -/
def wireClass (S : List Byte) : WireClass :=
  match S with
  | [] => .truncated
  | b0 :: _ =>
    let n := tz8 b0
    let v := wireValue n (S.take (n + 1))
    if S.length < n + 1 then .truncated
    else if n ≠ 0 ∧ v < 2 ^ (7 * n) then .nonCanonical
    else .valid v (S.drop (n + 1))

/-- Bit `p` of the encoding of `v` with tag `n`: R50's rule for a tagged form, R51's for the maximal form. -/
def wireBit (v : U64) (n p : Nat) : Bool :=
  if n < 8 then
    if p < n then false
    else if p = n then true
    else v.getLsbD (p - n - 1)
  else if p < 8 then false
  else v.getLsbD (p - 8)

end Sys2Proof.Machine
end

