-- ==== Sys2Proof/Safety.lean ====
section
/-! DEFINITION. What claims call a good state: the invariant of the registers and of ST, and the ends of a run. -/

namespace Sys2Proof.Machine

/-- Each written field holds a legal value: RES_LEN 1 to 9 (R17), RES_STATUS 0, 1, 2 or 4 (R14, R18). -/
def Block.fieldsLegal (b : Block) : Bool :=
  b.resLen.all (fun l => decide (1 ≤ l.toNat ∧ l.toNat ≤ 9)) &&
  b.resStatus.all (fun c => decide (c.toNat ≤ 2 ∨ c.toNat = 4))

/-- RES_BYTES is written with its length only: lanes at or beyond RES_LEN are 0 (R16), and the first lane's tag gives
RES_LEN (R61). -/
def Block.bytesLegal (b : Block) : Bool :=
  b.resBytes.all fun B => b.resLen.any fun l =>
    decide (tz8 (lane B 0) + 1 = l.toNat) &&
    (List.range 9).all fun i => decide (i < l.toNat) || lane B i == 0#8

/-- A value result stands only beside an OK status, and RES_VALUE never beside RES_LEN or RES_BYTES (R23, R84). -/
def Block.resultsExclusive (b : Block) : Bool :=
  ((b.resValue.isNone && b.resLen.isNone && b.resBytes.isNone) || b.resStatus == some (statusCode .ok)) &&
  (b.resValue.isNone || (b.resLen.isNone && b.resBytes.isNone))

/-- BUSY is 1 exactly while a command is in flight, with cycles left, and then RES_VALID is 0 (R20, R27). A block neither
busy nor valid is as reset leaves it (R100); a valid one has a status (R18). -/
def Block.protocolLegal (b : Block) : Bool :=
  (b.busy == b.inflight.isSome) &&
  b.inflight.all (fun f => decide (0 < f.remaining)) &&
  (!b.busy || !b.resValid) &&
  (b.busy || b.resValid || b == Block.reset) &&
  (!b.resValid || b.resStatus.isSome)

/-- The invariant of the block's registers. -/
def Block.inv (b : Block) : Bool := b.fieldsLegal && b.bytesLegal && b.resultsExclusive && b.protocolLegal

/-- The host's ST holds a code that is produced, 0 to 4, or is UNWRITTEN (R55, R85). -/
def HostSide.stLegal (h : HostSide) : Bool := h.st.all fun c => decide (c.toNat ≤ 4)

/-- The invariant that every step keeps. -/
def State.inv (s : State) : Bool := s.block.inv && s.host.stLegal

/-- The registers of a completed command: the three value results and the status code; RES_VALID 1, BUSY 0, nothing in
flight (R102). -/
def Block.completed (value : Option U64) (bytes : Option Lanes) (len : Option (BitVec 4)) (code : BitVec 3) : Block :=
  { resValue := value, resBytes := bytes, resLen := len, resStatus := some code,
    resValid := true, busy := false, inflight := none }

/-- What one block command of the script leaves of the machine: the registers it completes with, ST and HV copied from
them, and the host at the next line (R55). -/
def State.afterScriptCommand (s : State) (b : Block) : State :=
  { block := b, host := { s.host with hpc := s.host.hpc + 1, st := b.resStatus, hv := b.resValue } }

/-- The script has ended: the host is at HALT or past its last statement (R110). -/
def State.ended (s : State) : Bool := (currentStmt s).all fun x => x == Stmt.halt

/-- The end state of a script (R110): the result registers after its last completed command (all six of R14, RES_VALID and
BUSY among them), ST and HV, and the bytes consumed from each byte source. It says nothing of anything else. -/
structure EndState where
  resValue  : Option U64
  resBytes  : Option Lanes
  resLen    : Option (BitVec 4)
  resStatus : Option (BitVec 3)
  resValid  : Bool
  busy      : Bool
  st        : Option (BitVec 3)
  hv        : Option U64
  consumed  : List Nat
  deriving DecidableEq, Repr

/-- The end state, once the script has ended and no command is in flight (R110). -/
def State.endState (s : State) : Option EndState :=
  if s.ended && !s.block.busy then
    some { resValue := s.block.resValue, resBytes := s.block.resBytes, resLen := s.block.resLen,
           resStatus := s.block.resStatus, resValid := s.block.resValid, busy := s.block.busy,
           st := s.host.st, hv := s.host.hv,
           consumed := s.host.sources.map ByteSource.consumed }
  else none

/-- `n` steps one after the other. -/
def runSteps : Nat → State → Result
  | 0, s => .next s
  | n + 1, s => andThen (step s) (runSteps n)

end Sys2Proof.Machine
end

