-- ==== Sys2Proof/Certificates/Slice0/Obligations.lean ====
section
/-! DEFINITION. The statements for the provers. A statement about a command concludes with the state `exec` answers, which
gives its result, its completion and its frame at once: the host's side of the state is that of before. -/

open Sys2Proof Sys2Proof.Machine

/-! ## Reset and the command protocol -/

/-- R28, R99: at an edge with RST = 1 every register takes its reset value, whatever the other ports and the state are (a
START is ignored, a command in flight abandoned); State.reset has those values. That the edge leaves the host as it is is the
model's reading (DEDUCED, notes/assumptions/24.md): the rules name the block's registers only. -/
def Obligations.ResetEdgeGivesEveryRegisterItsResetValue : Prop :=
  (∀ (lat : BitVec 3 → Nat) (p : Ports) (s : State), p.rst = true →
    clockEdge lat p s = .next { s with block :=
      { resValue := none, resBytes := none, resLen := none, resStatus := none,
        resValid := false, busy := false, inflight := none } }) ∧
  State.reset.block =
    { resValue := none, resBytes := none, resLen := none, resStatus := none,
      resValid := false, busy := false, inflight := none }

/-- R104: a START with BUSY = 1 is the fault PROTOCOL_VIOLATION, at a clock edge and for every command given as one atomic
step. -/
def Obligations.StartWhileBusyIsProtocolViolation : Prop :=
  (∀ (lat : BitVec 3 → Nat) (p : Ports) (s : State), p.rst = false → p.start = true → s.block.busy = true →
    clockEdge lat p s = .fault .protocolViolation) ∧
  (∀ (i : Instr) (s : State), s.block.busy = true → exec i s = .fault .protocolViolation)

/-- R102, R105: from the issuing edge `p` on, with later edges `qs` that neither start nor reset and whose other ports are
anything, fewer than LATENCY later edges leave the command in flight (BUSY 1, RES_VALID 0), and LATENCY or more of them
leave exactly what the atomic command leaves. That the unreadable result fields keep their contents in flight is the model's
choice (DESIGN CHOICE, notes/assumptions/21.md), and that ST and HV stay at the completion its reading (DEDUCED,
notes/assumptions/13.md). -/
def Obligations.ClockedCommandRefinesAtomicCommand : Prop :=
  ∀ (lat : BitVec 3 → Nat) (p : Ports) (qs : List Ports) (s : State),
    s.block.busy = false → p.rst = false → p.start = true →
    (∀ q ∈ qs, q.rst = false ∧ q.start = false) →
    (qs.length < lat p.op →
      clockEdges lat (p :: qs) s = .next { s with block := { s.block with
        resValid := false, busy := true,
        inflight := some { record := p.record, remaining := lat p.op - qs.length } } }) ∧
    (lat p.op ≤ qs.length → clockEdges lat (p :: qs) s = exec (decodeRecord p.record) s)

/-- R21, R103: a read of a result field is READ_UNWRITTEN while RES_VALID = 0 and where the field is UNWRITTEN, and gives the
field's value otherwise; RES_VALID and BUSY can always be read. I6: a RES_STATUS of 5, 6 or 7, which is never produced, is a
fault when read (raw codes in the state are the model's choice, notes/assumptions/23.md). -/
def Obligations.ReadingUnwrittenFieldFaults : Prop :=
  (∀ b : Block, b.resValid = false →
    readReg b .resValue = .error .readUnwritten ∧ readReg b .resBytes = .error .readUnwritten ∧
    readReg b .resLen = .error .readUnwritten ∧ readReg b .resStatus = .error .readUnwritten) ∧
  (∀ b : Block, b.resValid = true →
    (b.resValue = none → readReg b .resValue = .error .readUnwritten) ∧
    (b.resBytes = none → readReg b .resBytes = .error .readUnwritten) ∧
    (b.resLen = none → readReg b .resLen = .error .readUnwritten) ∧
    (b.resStatus = none → readReg b .resStatus = .error .readUnwritten) ∧
    (∀ v, b.resValue = some v → readReg b .resValue = .ok v.toNat) ∧
    (∀ B, b.resBytes = some B → readReg b .resBytes = .ok B.toNat) ∧
    (∀ L, b.resLen = some L → readReg b .resLen = .ok L.toNat) ∧
    (∀ c, b.resStatus = some c → c.toNat < 5 → readReg b .resStatus = .ok c.toNat) ∧
    (∀ c, b.resStatus = some c → 5 ≤ c.toNat → readReg b .resStatus = .error .brokenStatus)) ∧
  (∀ b : Block, readReg b .resValid = .ok b.resValid.toNat ∧ readReg b .busy = .ok b.busy.toNat)

/-! ## The command encoding -/

/-- Tier 3 (a): the record of every command, and its 18 bytes, decode to that command with every operand. -/
def Obligations.DecodeOfEncodeIsTheCommand : Prop :=
  ∀ i : Instr, decodeRecord (encode i) = i ∧ decodePacked (encodePacked i) = .ok i

/-- R42, R43: the low three bits of the record alone select the command, and its operands are the record's bits `[66:3]`
(value), `[138:67]` (bytes, lane 0 lowest) and `[142:139]` (avail), unchanged. -/
def Obligations.OpFieldSelectsCommandAndOperandsAreRecordBits : Prop :=
  ∀ r : Record,
    (r.toNat % 8 = 0 → decodeRecord r = .venclen (BitVec.ofNat 64 (r.toNat / 2 ^ 3))) ∧
    (r.toNat % 8 = 1 → decodeRecord r = .venc (BitVec.ofNat 64 (r.toNat / 2 ^ 3))) ∧
    (r.toNat % 8 = 2 → decodeRecord r = .vdeclen (BitVec.ofNat 8 (r.toNat / 2 ^ 67))) ∧
    (r.toNat % 8 = 3 → decodeRecord r =
      .vdec (BitVec.ofNat 72 (r.toNat / 2 ^ 67)) (BitVec.ofNat 4 (r.toNat / 2 ^ 139))) ∧
    (r.toNat % 8 = 4 → decodeRecord r =
      .vcheck (BitVec.ofNat 8 (r.toNat / 2 ^ 67)) (BitVec.ofNat 64 (r.toNat / 2 ^ 3))) ∧
    (r.toNat % 8 = 5 → decodeRecord r = .zzenc (BitVec.ofNat 64 (r.toNat / 2 ^ 3))) ∧
    (r.toNat % 8 = 6 → decodeRecord r = .zzdec (BitVec.ofNat 64 (r.toNat / 2 ^ 3))) ∧
    (r.toNat % 8 = 7 → decodeRecord r = .reserved)

/-- The packed records spec/95_test_vectors.md writes out decode to the commands it names, each given as the 18 bytes of its
number, the least significant first: that byte order is the model's (DESIGN CHOICE, notes/assumptions/4.md). -/
def Obligations.SpecRecordsDecodeToTheirCommands : Prop :=
  decodePacked (bytesLE 18 0x000000000000000000000000000000000000) = .ok (.venclen 0) ∧
  decodePacked (bytesLE 18 0x000000000000000000000000000000000961) = .ok (.venc 300) ∧
  decodePacked (bytesLE 18 0x000000000000000000080000000000000002) = .ok (.vdeclen 0x01) ∧
  decodePacked (bytesLE 18 0x100000000000000025900000000000000003) = .ok (.vdec 0x04B2 2) ∧
  decodePacked (bytesLE 18 0x000000000000000000100000000000000404) = .ok (.vcheck 0x02 128) ∧
  decodePacked (bytesLE 18 0x00000000000000000007FFFFFFFFFFFFFDFD) = .ok (.zzenc 0xFFFFFFFFFFFFFFBF) ∧
  decodePacked (bytesLE 18 0x00000000000000000000000000000000040E) = .ok (.zzdec 129) ∧
  decodePacked (bytesLE 18 0x000000000000000000000000000000000007) = .ok .reserved

/-- The model's serialisation of a record (DESIGN CHOICE, notes/assumptions/4.md): bytes decode exactly where they are 18
and the number they form, the first the least significant, is below 2^143; otherwise they are rejected by name. -/
def Obligations.RecordBytesDecodeOrAreRejectedByName : Prop :=
  ∀ bs : List Byte,
    (bs.length < 18 → decodePacked bs = .error .shortRecord) ∧
    (18 < bs.length → decodePacked bs = .error .longRecord) ∧
    (bs.length = 18 → 2 ^ 143 ≤ leList bs → decodePacked bs = .error .bit143Set) ∧
    (∀ r : Record, leList bs = r.toNat → bs.length = 18 → decodePacked bs = .ok (decodeRecord r))

/-- A step runs the decoded command: where the host is at a packed record whose bytes decode to `i`, the step is `exec i`,
and after it the host has copied RES_STATUS to ST and RES_VALUE to HV and is at the next line. The `packed` statement is the
model's own (notes/assumptions/8.md). -/
def Obligations.StepRunsTheDecodedCommand : Prop :=
  ∀ (s : State) (bs : List Byte) (i : Instr),
    currentStmt s = some (.packed bs) → decodePacked bs = .ok i →
    step s = match exec i s with
      | .next t => .next { t with host := { t.host with
          hpc := t.host.hpc + 1, st := t.block.resStatus, hv := t.block.resValue } }
      | .fault f => .fault f
      | .refused r => .refused r

/-- A table word placed with withFetchWord is what the very next step runs (the placing is the model's own,
notes/assumptions/12.md). -/
def Obligations.PlacedTableWordIsTheNextCommand : Prop :=
  ∀ (s : State) (nbits w : Nat) (i : Instr),
    decodeTableWord nbits w = some i → s.block.busy = false →
    ∃ t, exec i (s.withFetchWord nbits w) = .next t ∧
      step (s.withFetchWord nbits w) = .next ((s.withFetchWord nbits w).afterScriptCommand t.block)

/-! ## varint_encoder -/

/-- R56: VENCLEN writes the least length `L` whose form holds the value (9 where no tagged form does), status OK, nothing
else. -/
def Obligations.VenclenWritesTheLeastLength : Prop :=
  ∀ (v : U64) (s : State), s.block.busy = false →
    ∃ L : Nat, 1 ≤ L ∧ L ≤ 9 ∧ (L ≤ 8 → v.toNat < 2 ^ (7 * L)) ∧ (2 ≤ L → 2 ^ (7 * (L - 1)) ≤ v.toNat) ∧
      exec (.venclen v) s = .next { s with block := Block.completed none none (some (BitVec.ofNat 4 L)) 0#3 }

/-- R57: the closed form of `ntag` agrees with its definition by minimality on every value; `clz64` counts the leading
zeros. -/
def Obligations.MinimalTagHasItsClosedForm : Prop :=
  ∀ v : U64,
    ntag v = min 8 ((63 - min (clz64 v) 63) / 7) ∧
    (v ≠ 0 → clz64 v ≤ 63 ∧ 2 ^ (63 - clz64 v) ≤ v.toNat ∧ v.toNat < 2 ^ (64 - clz64 v)) ∧
    (v = 0 → clz64 v = 64)

/-- R58: VENCLEN's result as a function of `clz64` alone. -/
def Obligations.VenclenDependsOnLeadingZerosAlone : Prop :=
  ∀ (v : U64) (s : State), s.block.busy = false →
    exec (.venclen v) s = .next { s with
      block := Block.completed none none (some (BitVec.ofNat 4
        (if clz64 v ≤ 7 then 9 else if clz64 v ≤ 63 then 9 - (clz64 v - 1) / 7 else 1))) 0#3 }

/-- R59: VENC writes nine lanes, RES_LEN and OK. The tagged branch (`n < 8`) writes the eight bytes of
`((v << 1) | 1) << n` and a zero ninth; the maximal branch (`n = 8`) a zero byte and the eight bytes of the value. `n` is the
least tag whose form holds the value. -/
def Obligations.VencWritesTheLanesOfItsForm : Prop :=
  ∀ (v : U64) (s : State), s.block.busy = false →
    ∃ (n : Nat) (B : Lanes), n ≤ 8 ∧ (n < 8 → v.toNat < 2 ^ (7 * (n + 1))) ∧ (n ≠ 0 → 2 ^ (7 * n) ≤ v.toNat) ∧
      (n < 8 → (∀ i < 8, lane B i = (((v <<< 1) ||| 1#64) <<< n).extractLsb' (8 * i) 8) ∧ lane B 8 = 0#8) ∧
      (n = 8 → lane B 0 = 0#8 ∧ ∀ k, 1 ≤ k → k ≤ 8 → lane B k = v.extractLsb' (8 * k - 8) 8) ∧
      exec (.venc v) s = .next { s with
        block := Block.completed none (some B) (some (BitVec.ofNat 4 (n + 1))) 0#3 }

/-- R60: every bit VENC writes is the bit R50 (tagged) or R51 (maximal) gives the encoding with the minimal tag, no bit of the
value is lost, and every lane at or beyond RES_LEN is zero. -/
def Obligations.VencBitsAreTheWireFormat : Prop :=
  ∀ (v : U64) (s : State), s.block.busy = false →
    ∃ (n : Nat) (B : Lanes), n ≤ 8 ∧ (n < 8 → v.toNat < 2 ^ (7 * (n + 1))) ∧ (n ≠ 0 → 2 ^ (7 * n) ≤ v.toNat) ∧
      exec (.venc v) s = .next { s with
        block := Block.completed none (some B) (some (BitVec.ofNat 4 (n + 1))) 0#3 } ∧
      (∀ p < 72, B.getLsbD p = (decide (p < 8 * (n + 1)) && wireBit v n p)) ∧
      (n < 8 → B.toNat = (2 * v.toNat + 1) * 2 ^ n)

/-- R61: VENC's length, VENCLEN's length and VDECLEN's length of VENC's first lane are one. -/
def Obligations.EncodedAndDecodedLengthsAgree : Prop :=
  ∀ (v : U64) (s : State), s.block.busy = false →
    ∃ (B : Lanes) (L : BitVec 4),
      exec (.venc v) s = .next { s with block := Block.completed none (some B) (some L) 0#3 } ∧
      exec (.venclen v) s = .next { s with block := Block.completed none none (some L) 0#3 } ∧
      exec (.vdeclen (lane B 0)) s = .next { s with block := Block.completed none none (some L) 0#3 } ∧
      L.toNat = tz8 (lane B 0) + 1

/-! ## varint_decoder -/

/-- R63: VDECLEN writes one more than the position `n` of the first byte's lowest set bit (8 where the byte is zero). -/
def Obligations.VdeclenWritesLowestSetBitPlusOne : Prop :=
  ∀ (b0 : Byte) (s : State), s.block.busy = false →
    ∃ n : Nat, n ≤ 8 ∧ (n < 8 → b0.getLsbD n = true) ∧ (∀ i < n, b0.getLsbD i = false) ∧
      exec (.vdeclen b0) s = .next { s with block := Block.completed none none (some (BitVec.ofNat 4 (n + 1))) 0#3 }

/-- R64, R66: VDEC's outcome for every input. With `n` the first lane's tag: truncated input is UNEXPECTED_END_OF_INPUT
first; then the value of the first `n + 1` lanes, if a smaller tag could hold it, is NON_CANONICAL_ENCODING; else it is
RES_VALUE. RES_LEN is UNWRITTEN throughout. -/
def Obligations.VdecDecodesOrReportsItsError : Prop :=
  ∀ (B : Lanes) (a : BitVec 4) (s : State) (n m : Nat), s.block.busy = false →
    n = tz8 (lane B 0) → m = min a.toNat 9 →
    (m < n + 1 → exec (.vdec B a) s = .next { s with block := Block.completed none none none 1#3 }) ∧
    (n + 1 ≤ m → ∀ v : Nat,
      v = (if n < 8 then B.toNat % 2 ^ (8 * (n + 1)) / 2 ^ (n + 1) else B.toNat / 2 ^ 8) →
      (n ≠ 0 ∧ v < 2 ^ (7 * n) → exec (.vdec B a) s = .next { s with block := Block.completed none none none 2#3 }) ∧
      (¬ (n ≠ 0 ∧ v < 2 ^ (7 * n)) →
        v < 2 ^ 64 ∧
        exec (.vdec B a) s = .next { s with block := Block.completed (some (BitVec.ofNat 64 v)) none none 0#3 }))

/-- R65: two inputs whose lanes up to the encoding's last agree, both with enough lanes valid, decode alike. -/
def Obligations.VdecIgnoresLanesAfterTheEncoding : Prop :=
  ∀ (B B' : Lanes) (a a' : BitVec 4) (s : State),
    (∀ i < tz8 (lane B 0) + 1, lane B' i = lane B i) →
    tz8 (lane B 0) + 1 ≤ min a.toNat 9 → tz8 (lane B 0) + 1 ≤ min a'.toNat 9 →
    exec (.vdec B' a') s = exec (.vdec B a) s

/-- R44: lanes at or beyond `min(IN_AVAIL, 9)` have no effect, and IN_AVAIL 10 to 15 mean 9. -/
def Obligations.VdecIgnoresLanesBeyondAvail : Prop :=
  (∀ (B B' : Lanes) (a : BitVec 4) (s : State), (∀ i < min a.toNat 9, lane B' i = lane B i) →
    exec (.vdec B' a) s = exec (.vdec B a) s) ∧
  (∀ (B : Lanes) (a : BitVec 4) (s : State), 9 ≤ a.toNat → exec (.vdec B a) s = exec (.vdec B 9#4) s)

/-- R67: VDEC completes for every input, with one of its three statuses, and a value exactly when that is OK. -/
def Obligations.VdecIsTotal : Prop :=
  ∀ (B : Lanes) (a : BitVec 4) (s : State), s.block.busy = false →
    ∃ t, exec (.vdec B a) s = .next t ∧ t.host = s.host ∧ t.block.resValid = true ∧ t.block.busy = false ∧
      (t.block.resStatus = some 0#3 ∨ t.block.resStatus = some 1#3 ∨ t.block.resStatus = some 2#3) ∧
      (t.block.resValue.isSome = true ↔ t.block.resStatus = some 0#3)

/-- R68, tier 3: what VENC writes, VDEC reads back, whatever the lanes after the encoding hold, with any avail that reaches
the encoding's end; with a smaller avail it is UNEXPECTED_END_OF_INPUT. -/
def Obligations.DecodeOfEncodedValueIsTheValue : Prop :=
  ∀ (v : U64) (s : State), s.block.busy = false →
    ∃ (B : Lanes) (L : BitVec 4),
      exec (.venc v) s = .next { s with block := Block.completed none (some B) (some L) 0#3 } ∧
      1 ≤ L.toNat ∧ L.toNat ≤ 9 ∧
      ∀ (B' : Lanes) (a : BitVec 4) (s' : State), s'.block.busy = false →
        (∀ i < L.toNat, lane B' i = lane B i) →
        (L.toNat ≤ a.toNat →
          exec (.vdec B' a) s' = .next { s' with block := Block.completed (some v) none none 0#3 }) ∧
        (a.toNat < L.toNat →
          exec (.vdec B' a) s' = .next { s' with block := Block.completed none none none 1#3 })

/-- R53, tier 3: the other direction. Where VDEC answers OK with `v`, the front of its input is exactly the encoding VENC
writes for `v`: each value has one accepted encoding. -/
def Obligations.AcceptedInputIsTheEncodingOfItsValue : Prop :=
  ∀ (B : Lanes) (a : BitVec 4) (v : U64) (s t : State),
    exec (.vdec B a) s = .next t → t.block.resValue = some v →
    ∃ (B' : Lanes) (L : BitVec 4),
      exec (.venc v) s = .next { s with block := Block.completed none (some B') (some L) 0#3 } ∧
      L.toNat ≤ min a.toNat 9 ∧ ∀ i < L.toNat, lane B i = lane B' i

/-- R54, tier 3: VDEC of the first nine bytes of a byte sequence reports the sequence's class: R54's classes are stated over
sequences of any length, apart from the block. -/
def Obligations.VdecReportsTheWireClass : Prop :=
  ∀ (S : List Byte) (a : BitVec 4) (s : State), s.block.busy = false → min a.toNat 9 = min S.length 9 →
    match wireClass S with
    | .truncated =>
      exec (.vdec (lanesOf (S.take 9)) a) s = .next { s with block := Block.completed none none none 1#3 }
    | .nonCanonical =>
      exec (.vdec (lanesOf (S.take 9)) a) s = .next { s with block := Block.completed none none none 2#3 }
    | .valid v rest =>
      v < 2 ^ 64 ∧ rest.length < S.length ∧
      exec (.vdec (lanesOf (S.take 9)) a) s =
        .next { s with block := Block.completed (some (BitVec.ofNat 64 v)) none none 0#3 }

/-- R53, R54: a sequence is a valid encoding of `v` followed by `rest` exactly when it is the first RES_LEN bytes of what
VENC `v` writes, then `rest`. -/
def Obligations.ValidSequencesAreTheEncodedValues : Prop :=
  ∀ (v : U64) (s : State), s.block.busy = false →
    ∃ (B : Lanes) (L : BitVec 4),
      exec (.venc v) s = .next { s with block := Block.completed none (some B) (some L) 0#3 } ∧
      ∀ S rest : List Byte, wireClass S = .valid v.toNat rest ↔ S = (List.range L.toNat).map (lane B) ++ rest

/-! ## varint_canonical_validator -/

/-- R75, R76: VCHECK's status for every first byte and value, and nothing else written. -/
def Obligations.VcheckComparesWithItsTagsThreshold : Prop :=
  ∀ (b0 : Byte) (v : U64) (s : State), s.block.busy = false →
    exec (.vcheck b0 v) s = .next { s with
      block := Block.completed none none none (if tz8 b0 ≠ 0 ∧ v.toNat < 2 ^ (7 * tz8 b0) then 2#3 else 0#3) }

/-- R77: on an input that passes VDEC's length checks, VDEC and VCHECK of the first lane and the reconstructed value report one
status, and VDEC's value on OK is that value. -/
def Obligations.VdecAndVcheckAgree : Prop :=
  ∀ (B : Lanes) (a : BitVec 4) (s s' : State), s.block.busy = false → s'.block.busy = false →
    tz8 (lane B 0) + 1 ≤ min a.toNat 9 →
    ∃ t u, exec (.vdec B a) s = .next t ∧
      exec (.vcheck (lane B 0) (decodeValue B (tz8 (lane B 0)))) s' = .next u ∧
      t.block.resStatus = u.block.resStatus ∧
      (t.block.resStatus = some 0#3 → t.block.resValue = some (decodeValue B (tz8 (lane B 0)))) ∧
      (t.block.resStatus = some 0#3 ∨ t.block.resStatus = some 2#3)

/-- R78: of all first bytes whose form can hold the value, VCHECK accepts exactly those with the minimal tag. -/
def Obligations.VcheckAcceptsExactlyTheMinimalTag : Prop :=
  ∀ (b0 : Byte) (v : U64) (s : State), s.block.busy = false →
    (tz8 b0 = 8 ∨ v.toNat < 2 ^ (7 * (tz8 b0 + 1))) →
    exec (.vcheck b0 v) s = .next { s with
      block := Block.completed none none none (if tz8 b0 = ntag v then 0#3 else 2#3) }

/-! ## zigzag_encoder and zigzag_decoder -/

/-- R79: ZZENC writes `(s << 1) XOR (s >>a 63)` and OK. -/
def Obligations.ZzencWritesItsFormula : Prop :=
  ∀ (v : U64) (s : State), s.block.busy = false →
    exec (.zzenc v) s = .next { s with
      block := Block.completed (some ((v <<< 1) ^^^ (v.sshiftRight 63))) none none 0#3 }

/-- R80: ZZENC on integers: `2*s` for `s >= 0` and `-2*s - 1` for `s < 0`. -/
def Obligations.ZzencMapsSignedToUnsigned : Prop :=
  ∀ (v : U64) (s : State), s.block.busy = false →
    ∃ w : U64, exec (.zzenc v) s = .next { s with block := Block.completed (some w) none none 0#3 } ∧
      (0 ≤ v.toInt → (w.toNat : Int) = 2 * v.toInt) ∧ (v.toInt < 0 → (w.toNat : Int) = -2 * v.toInt - 1)

/-- R81: ZZDEC writes `(u >> 1) XOR (0 - (u & 1))` and OK. -/
def Obligations.ZzdecWritesItsFormula : Prop :=
  ∀ (u : U64) (s : State), s.block.busy = false →
    exec (.zzdec u) s = .next { s with
      block := Block.completed (some ((u >>> 1) ^^^ (0#64 - (u &&& 1#64)))) none none 0#3 }

/-- R82: ZZDEC on integers: `u / 2` for even `u` and `-(u + 1) / 2` for odd `u`. -/
def Obligations.ZzdecMapsUnsignedToSigned : Prop :=
  ∀ (u : U64) (s : State), s.block.busy = false →
    ∃ w : U64, exec (.zzdec u) s = .next { s with block := Block.completed (some w) none none 0#3 } ∧
      (u.toNat % 2 = 0 → w.toInt = (u.toNat / 2 : Nat)) ∧
      (u.toNat % 2 = 1 → w.toInt = -((u.toNat + 1) / 2 : Nat))

/-- R83: ZZENC then ZZDEC gives the pattern back, and ZZDEC then ZZENC too, both with OK. -/
def Obligations.ZigzagCommandsAreInverse : Prop :=
  ∀ (x : U64) (s s' : State), s.block.busy = false → s'.block.busy = false →
    (∃ w : U64, exec (.zzenc x) s = .next { s with block := Block.completed (some w) none none 0#3 } ∧
      exec (.zzdec w) s' = .next { s' with block := Block.completed (some x) none none 0#3 }) ∧
    (∃ w : U64, exec (.zzdec x) s = .next { s with block := Block.completed (some w) none none 0#3 } ∧
      exec (.zzenc w) s' = .next { s' with block := Block.completed (some x) none none 0#3 })

/-! ## The reserved op, and rules about all commands -/

/-- R46, R89: a command with op 7 reports ILLEGAL_OP and writes no other result, and a host script that issues it is
refused. R46 lets a model refuse or fault such a script: the refusal at the load is the model's choice (DESIGN CHOICE,
notes/assumptions/1.md), and the lines that can issue op 7 are its own `packed` and `edge` lines
(notes/assumptions/8.md). -/
def Obligations.ReservedOpReportsIllegalOpAndScriptsMayNotIssueIt : Prop :=
  (∀ (r : Record) (s : State), recordOp r = 7#3 → s.block.busy = false →
    exec (decodeRecord r) s = .next { s with block := Block.completed none none none 4#3 }) ∧
  (∀ (p : Program) (s : State) (l : Line), l ∈ p.script → l.stmt.issuesReserved = true →
    ∃ r, loadProgram p s = .refused r)

/-- R23: which result fields each command writes; the others are UNWRITTEN. Every command completes, whatever its operands,
and touches nothing of the host. -/
def Obligations.EachCommandWritesTheFieldsOfItsRow : Prop :=
  ∀ (i : Instr) (s : State), s.block.busy = false →
    ∃ t, exec i s = .next t ∧ t.host = s.host ∧ t.block.resValid = true ∧ t.block.busy = false ∧
      t.block.inflight = none ∧
      match i with
      | .venclen _ => t.block.resStatus = some 0#3 ∧ t.block.resLen.isSome = true ∧
          t.block.resValue = none ∧ t.block.resBytes = none
      | .venc _ => t.block.resStatus = some 0#3 ∧ t.block.resLen.isSome = true ∧ t.block.resBytes.isSome = true ∧
          t.block.resValue = none
      | .vdeclen _ => t.block.resStatus = some 0#3 ∧ t.block.resLen.isSome = true ∧
          t.block.resValue = none ∧ t.block.resBytes = none
      | .vdec _ _ =>
          (t.block.resStatus = some 0#3 ∧ t.block.resValue.isSome = true ∨
            (t.block.resStatus = some 1#3 ∨ t.block.resStatus = some 2#3) ∧ t.block.resValue = none) ∧
          t.block.resBytes = none ∧ t.block.resLen = none
      | .vcheck _ _ => (t.block.resStatus = some 0#3 ∨ t.block.resStatus = some 2#3) ∧
          t.block.resValue = none ∧ t.block.resBytes = none ∧ t.block.resLen = none
      | .zzenc _ => t.block.resStatus = some 0#3 ∧ t.block.resValue.isSome = true ∧
          t.block.resBytes = none ∧ t.block.resLen = none
      | .zzdec _ => t.block.resStatus = some 0#3 ∧ t.block.resValue.isSome = true ∧
          t.block.resBytes = none ∧ t.block.resLen = none
      | .reserved => t.block.resStatus = some 4#3 ∧
          t.block.resValue = none ∧ t.block.resBytes = none ∧ t.block.resLen = none

/-- R13, R35: a command's results are the same from any two states that accept it, it writes nothing but the registers of the
block, and issued again it changes nothing. -/
def Obligations.ResultsDependOnOperandsAlone : Prop :=
  ∀ (i : Instr) (s s' : State), s.block.busy = false → s'.block.busy = false →
    ∃ b : Block, exec i s = .next { s with block := b } ∧ exec i s' = .next { s' with block := b } ∧
      exec i { s with block := b } = .next { s with block := b }

/-- R84: after a command whose status is not OK every value result is UNWRITTEN, RES_VALID is 1, and the block accepts the
next command. -/
def Obligations.ErrorLeavesNoValueAndAcceptsTheNextCommand : Prop :=
  ∀ (i : Instr) (s t : State), exec i s = .next t → t.block.resStatus ≠ some 0#3 →
    t.block.resValue = none ∧ t.block.resBytes = none ∧ t.block.resLen = none ∧ t.block.resValid = true ∧
    ∀ j : Instr, ∃ u, exec j t = .next u

/-! ## The host script -/

/-- R55: a command line of the script is one START with the fields its syntax drives: the step is that command, ST and HV
are copied, and the host goes on at the next line. The literal ranges are the model's reading (notes/assumptions/15.md). -/
def Obligations.ScriptLineIssuesItsCommand : Prop :=
  ∀ (s : State), s.block.busy = false →
    (∀ z : Int, 0 ≤ z → z < 2 ^ 64 → currentStmt s = some (.venclen (.lit z)) →
      ∃ t, exec (.venclen (BitVec.ofInt 64 z)) s = .next t ∧ step s = .next (s.afterScriptCommand t.block)) ∧
    (∀ z : Int, 0 ≤ z → z < 2 ^ 64 → currentStmt s = some (.venc (.lit z)) →
      ∃ t, exec (.venc (BitVec.ofInt 64 z)) s = .next t ∧ step s = .next (s.afterScriptCommand t.block)) ∧
    (∀ b0 : Byte, currentStmt s = some (.vdeclen b0) →
      ∃ t, exec (.vdeclen b0) s = .next t ∧ step s = .next (s.afterScriptCommand t.block)) ∧
    (∀ bs : List Byte, bs.length ≤ 9 → currentStmt s = some (.vdec (.list bs) .omitted) →
      ∃ (B : Lanes) (t : State), (∀ i < 9, lane B i = bs.getD i 0#8) ∧
        exec (.vdec B (BitVec.ofNat 4 bs.length)) s = .next t ∧ step s = .next (s.afterScriptCommand t.block)) ∧
    (∀ (bs : List Byte) (a : BitVec 4), bs.length ≤ 9 → currentStmt s = some (.vdec (.list bs) (.lit a)) →
      ∃ (B : Lanes) (t : State), (∀ i < 9, lane B i = bs.getD i 0#8) ∧
        exec (.vdec B a) s = .next t ∧ step s = .next (s.afterScriptCommand t.block)) ∧
    (∀ (b0 : Byte) (z : Int), 0 ≤ z → z < 2 ^ 64 → currentStmt s = some (.vcheck b0 (.lit z)) →
      ∃ t, exec (.vcheck b0 (BitVec.ofInt 64 z)) s = .next t ∧ step s = .next (s.afterScriptCommand t.block)) ∧
    (∀ z : Int, -2 ^ 63 ≤ z → z < 2 ^ 63 → currentStmt s = some (.zzenc (.lit z)) →
      ∃ t, exec (.zzenc (BitVec.ofInt 64 z)) s = .next t ∧ step s = .next (s.afterScriptCommand t.block)) ∧
    (∀ z : Int, 0 ≤ z → z < 2 ^ 64 → currentStmt s = some (.zzdec (.lit z)) →
      ∃ t, exec (.zzdec (BitVec.ofInt 64 z)) s = .next t ∧ step s = .next (s.afterScriptCommand t.block))

/-- R55: `@val` is HV, `@enc` is RES_BYTES with RES_LEN as its avail, `@len` in an avail position is RES_LEN; a shorthand that
reads an UNWRITTEN value is the fault of R21. That `@enc` may stand beside a literal avail, and `@len` beside a literal list, is
the model's reading (notes/assumptions/22.md). -/
def Obligations.OperandShorthandsReadTheHostsCopies : Prop :=
  ∀ (s : State), s.block.busy = false →
    (∀ (x : U64) (b0 : Byte), s.host.hv = some x →
      (currentStmt s = some (.venclen .val) →
        ∃ t, exec (.venclen x) s = .next t ∧ step s = .next (s.afterScriptCommand t.block)) ∧
      (currentStmt s = some (.venc .val) →
        ∃ t, exec (.venc x) s = .next t ∧ step s = .next (s.afterScriptCommand t.block)) ∧
      (currentStmt s = some (.vcheck b0 .val) →
        ∃ t, exec (.vcheck b0 x) s = .next t ∧ step s = .next (s.afterScriptCommand t.block)) ∧
      (currentStmt s = some (.zzenc .val) →
        ∃ t, exec (.zzenc x) s = .next t ∧ step s = .next (s.afterScriptCommand t.block)) ∧
      (currentStmt s = some (.zzdec .val) →
        ∃ t, exec (.zzdec x) s = .next t ∧ step s = .next (s.afterScriptCommand t.block))) ∧
    (∀ (x : Stmt) (b0 : Byte), s.host.hv = none → currentStmt s = some x →
      x ∈ [.venclen .val, .venc .val, .vcheck b0 .val, .zzenc .val, .zzdec .val, .senc .val] →
      step s = .fault .readUnwritten) ∧
    (∀ (B : Lanes) (L : BitVec 4), s.block.resValid = true → s.block.resBytes = some B → s.block.resLen = some L →
      (currentStmt s = some (.vdec .enc .omitted) ∨ currentStmt s = some (.vdec .enc .len) →
        ∃ t, exec (.vdec B L) s = .next t ∧ step s = .next (s.afterScriptCommand t.block)) ∧
      (∀ a : BitVec 4, currentStmt s = some (.vdec .enc (.lit a)) →
        ∃ t, exec (.vdec B a) s = .next t ∧ step s = .next (s.afterScriptCommand t.block))) ∧
    (∀ (bs : List Byte) (L : BitVec 4), s.block.resValid = true → s.block.resLen = some L → bs.length ≤ 9 →
      currentStmt s = some (.vdec (.list bs) .len) →
      ∃ t, exec (.vdec (lanesOf bs) L) s = .next t ∧ step s = .next (s.afterScriptCommand t.block)) ∧
    (∀ a : AvailArg, s.block.resValid = false ∨ s.block.resBytes = none ∨ s.block.resLen = none →
      currentStmt s = some (.vdec .enc a) → step s = .fault .readUnwritten) ∧
    (∀ bs : List Byte, s.block.resValid = false ∨ s.block.resLen = none → bs.length ≤ 9 →
      currentStmt s = some (.vdec (.list bs) .len) → step s = .fault .readUnwritten) ∧
    (s.block.resValid = false ∨ s.block.resBytes = none ∨ s.block.resLen = none →
      currentStmt s = some (.sdec .enc) → step s = .fault .readUnwritten)

/-- R55: BST branches when ST is the code, BNST when it is not, B always; a target is a label's first line or `k` lines on;
otherwise the host goes on at the next line. ST UNWRITTEN is the fault of R21, ST 5, 6 or 7 the fault of I6
(notes/assumptions/23.md). Labels as numbers, the first definition binding, the refusal of a label no line defines, and what
`+k` counts are the model's choices (notes/assumptions/9.md and 10.md); so is that no clock edge passes at a branch, which this
says for BUSY = 1 too (DESIGN CHOICE, unsafe, notes/assumptions/3.md). -/
def Obligations.BranchesFollowST : Prop :=
  ∀ (s : State) (code : Status) (tgt : Target),
    (∀ n : Nat,
      (match tgt with
        | .plus k => n = s.host.hpc + k
        | .label l => ((s.host.script[n]?).bind Line.label = some l ∧
            ∀ m < n, (s.host.script[m]?).bind Line.label ≠ some l)) →
      (currentStmt s = some (.br tgt) → step s = .next { s with host := { s.host with hpc := n } }) ∧
      (s.host.st = some (statusCode code) → currentStmt s = some (.bst code tgt) →
        step s = .next { s with host := { s.host with hpc := n } }) ∧
      (∀ c, s.host.st = some c → c.toNat ≤ 4 → c ≠ statusCode code → currentStmt s = some (.bnst code tgt) →
        step s = .next { s with host := { s.host with hpc := n } })) ∧
    (∀ c, s.host.st = some c → c.toNat ≤ 4 → c ≠ statusCode code → currentStmt s = some (.bst code tgt) →
      step s = .next { s with host := { s.host with hpc := s.host.hpc + 1 } }) ∧
    (s.host.st = some (statusCode code) → currentStmt s = some (.bnst code tgt) →
      step s = .next { s with host := { s.host with hpc := s.host.hpc + 1 } }) ∧
    (∀ l : Nat, tgt = .label l → (∀ m : Nat, (s.host.script[m]?).bind Line.label ≠ some l) →
      (currentStmt s = some (.br tgt) → step s = .refused .unknownLabel) ∧
      (s.host.st = some (statusCode code) → currentStmt s = some (.bst code tgt) →
        step s = .refused .unknownLabel) ∧
      (∀ c, s.host.st = some c → c.toNat ≤ 4 → c ≠ statusCode code → currentStmt s = some (.bnst code tgt) →
        step s = .refused .unknownLabel)) ∧
    (currentStmt s = some (.bst code tgt) ∨ currentStmt s = some (.bnst code tgt) →
      (s.host.st = none → step s = .fault .readUnwritten) ∧
      (∀ c, s.host.st = some c → 5 ≤ c.toNat → step s = .fault .brokenStatus))

/-- R21, R103 as a host meets them: a line that reads a register stops the run with READ_UNWRITTEN where the register is
UNWRITTEN or RES_VALID = 0 (and with the fault of I6 on a status 5 to 7), and else records its value and goes on, the block
untouched. The `read` statement is the model's own (notes/assumptions/8.md); that the block is untouched with BUSY = 1 too,
no clock edge passing, is its choice (DESIGN CHOICE, unsafe, notes/assumptions/3.md). -/
def Obligations.HostReadOfRegisterFaultsOrGoesOn : Prop :=
  ∀ (s : State) (r : ResultReg), currentStmt s = some (.read r) →
    (∀ n, readReg s.block r = .ok n →
      step s = .next { s with host := { s.host with hpc := s.host.hpc + 1, lastRead := some n } }) ∧
    (∀ f, readReg s.block r = .error f → step s = .fault f) ∧
    (s.block.resValid = false → r ≠ .resValid → r ≠ .busy → step s = .fault .readUnwritten)

/-- R23 ("a host never writes a result register"): every statement that issues no command and drives no clock edge leaves
the block's registers as they are, if nothing is in flight. The `read` line is the model's own (notes/assumptions/8.md), and
that a step is answered at HALT is its choice (notes/assumptions/11.md). -/
def Obligations.HostControlLeavesTheBlockAlone : Prop :=
  ∀ (s t : State) (x : Stmt), s.block.busy = false → currentStmt s = some x →
    ((∃ c g, x = .bst c g) ∨ (∃ c g, x = .bnst c g) ∨ (∃ g, x = .br g) ∨ x = .halt ∨ (∃ r, x = .read r)) →
    step s = .next t → t.block = s.block

/-- R110: at HALT, or past the last statement, the script has ended: a step changes nothing, if nothing is in flight. That
a step is still answered there, and hpc stays, is the model's choice (notes/assumptions/11.md). -/
def Obligations.EndedScriptChangesNothing : Prop :=
  ∀ s : State, s.ended = true → s.block.busy = false → step s = .next s

/-- R27, R102, R110: a command still in flight when the script has ended (an `edge` line started it) goes on: fewer steps than
it has cycles left leave it in flight, and that many or more, at least one, leave the registers the atomic command leaves,
which are those of the end state. That each step there is a clock edge, and the host stays, is the model's choice
(notes/assumptions/3.md and 11.md); so is that ST and HV stay (notes/assumptions/13.md) and that the fields keep their
contents in flight (notes/assumptions/21.md). -/
def Obligations.CommandInFlightCompletesAfterTheScript : Prop :=
  ∀ (s : State) (f : InFlight) (n : Nat), s.ended = true → s.block.busy = true → s.block.inflight = some f →
    (n < f.remaining → runSteps n s = .next { s with block := { s.block with
      inflight := some { f with remaining := f.remaining - n } } }) ∧
    (f.remaining ≤ n → 1 ≤ n → ∃ t, exec (decodeRecord f.record) State.reset = .next t ∧
      runSteps n s = .next { s with block := t.block })

/-- R99, R102, R104 as the host's `edge` line meets them: the step at the line is exactly one rising clock edge with the ports as
written, a fault of it stops the run, and the host is at the next line, with ST, HV and everything else of it untouched. The
line is the model's own (notes/assumptions/8.md); that ST and HV are untouched is its reading (DEDUCED,
notes/assumptions/13.md). -/
def Obligations.EdgeLineIsOneClockEdge : Prop :=
  ∀ (s : State) (p : Ports), currentStmt s = some (.edge p) →
    (∀ t, clockEdge Config.latency p s = .next t →
      step s = .next { block := t.block, host := { s.host with hpc := s.host.hpc + 1 } }) ∧
    (∀ f, clockEdge Config.latency p s = .fault f → step s = .fault f) ∧
    (∀ r, clockEdge Config.latency p s ≠ .refused r)

/-- R110: the end state of a script whose last statement is a HOST_READ, in its three outcomes: all six registers after the last
completed command, ST and HV, and the bytes consumed from each source, of which only the one read has changed. HOST_READ as one
line and one step is the model's choice (notes/assumptions/10.md). -/
def Obligations.EndStateHoldsRegistersHostValuesAndBytesConsumed : Prop :=
  ∀ (s : State) (k : Nat) (src : ByteSource), s.block.busy = false → currentStmt s = some (.hostRead k) →
    ((s.host.script[s.host.hpc + 1]?).map Line.stmt = none ∨
      (s.host.script[s.host.hpc + 1]?).map Line.stmt = some .halt) →
    s.host.sources[k]? = some src → src.ended = false →
    ∃ t, step s = .next t ∧ ∃ e, t.endState = some e ∧ e.busy = false ∧
      (src.data = [] →
        e.resValue = s.block.resValue ∧ e.resBytes = s.block.resBytes ∧ e.resLen = s.block.resLen ∧
        e.resStatus = s.block.resStatus ∧ e.resValid = s.block.resValid ∧
        e.st = some 3#3 ∧ e.hv = none ∧ e.consumed = s.host.sources.map ByteSource.consumed) ∧
      (∀ (b0 : Byte) (bs : List Byte), src.data = b0 :: bs → bs.length < tz8 b0 →
        e.resValue = none ∧ e.resBytes = none ∧ e.resLen = some (BitVec.ofNat 4 (tz8 b0 + 1)) ∧
        e.resStatus = some 0#3 ∧ e.resValid = true ∧ e.st = some 1#3 ∧ e.hv = none ∧
        e.consumed = (s.host.sources.map ByteSource.consumed).set k (src.consumed + bs.length + 1)) ∧
      (∀ (b0 : Byte) (bs : List Byte), src.data = b0 :: bs → tz8 b0 ≤ bs.length →
        ∃ u, exec (.vdec (lanesOf (b0 :: bs.take (tz8 b0))) (BitVec.ofNat 4 (tz8 b0 + 1))) s = .next u ∧
          e.resValue = u.block.resValue ∧ e.resBytes = none ∧ e.resLen = none ∧
          e.resStatus = u.block.resStatus ∧ e.resValid = true ∧ e.st = u.block.resStatus ∧ e.hv = u.block.resValue ∧
          e.consumed = (s.host.sources.map ByteSource.consumed).set k (src.consumed + (tz8 b0 + 1)))

/-- The load of a program is the model's choice (DESIGN CHOICE, notes/assumptions/12.md): a well-formed program is loaded, the
host starting at its first line as part L3 of spec/95_test_vectors.md starts one (ST and HV UNWRITTEN, `hpc` = 0), each source
unread, each buffer empty (notes/assumptions/16.md), the block and the count of free draws as they were; any other program is
refused. -/
def Obligations.LoadedProgramStartsAtItsFirstLine : Prop :=
  ∀ (p : Program) (s : State),
    (p.wf = true → ∃ t, loadProgram p s = .next t ∧ t.block = s.block ∧ t.host.script = p.script ∧ t.host.hpc = 0 ∧
      t.host.st = none ∧ t.host.hv = none ∧ t.host.lastRead = none ∧ t.host.draws = s.host.draws ∧
      t.host.sources.map ByteSource.data = p.sources ∧
      (∀ src ∈ t.host.sources, src.consumed = 0 ∧ src.ended = false) ∧
      t.host.buffers.length = p.buffers ∧ ∀ b ∈ t.host.buffers, b = []) ∧
    (p.wf = false → ∃ r, loadProgram p s = .refused r)

/-- R72, R73: HOST_READ of a source with no byte left before its EOF is END_OF_INPUT with no value; nothing is consumed, and
no command is issued: the block is as it was. The source is then one that has answered EOF (notes/assumptions/7.md), and the
host is at the next line. HOST_READ as one line and one step is the model's choice (notes/assumptions/10.md), and so is that
no clock edge passes, which this says for BUSY = 1 too (DESIGN CHOICE, unsafe, notes/assumptions/3.md). -/
def Obligations.HostReadOfExhaustedSourceIsEndOfInput : Prop :=
  ∀ (s : State) (k : Nat) (src : ByteSource),
    currentStmt s = some (.hostRead k) → s.host.sources[k]? = some src → src.data = [] → src.ended = false →
    step s = .next { s with host := { s.host with
      hpc := s.host.hpc + 1, st := some 3#3, hv := none,
      sources := s.host.sources.set k { src with ended := true } } }

/-- R71, R72: HOST_READ of a source that ends inside an encoding is UNEXPECTED_END_OF_INPUT with no value; every byte that was
there is consumed, and the block holds what VDECLEN of the first byte left. HOST_READ as one line and one step is the model's
choice (notes/assumptions/10.md). -/
def Obligations.HostReadCutShortIsUnexpectedEndOfInput : Prop :=
  ∀ (s : State) (k : Nat) (src : ByteSource) (b0 : Byte) (bs : List Byte), s.block.busy = false →
    currentStmt s = some (.hostRead k) → s.host.sources[k]? = some src → src.data = b0 :: bs → src.ended = false →
    bs.length < tz8 b0 →
    step s = .next {
      block := Block.completed none none (some (BitVec.ofNat 4 (tz8 b0 + 1))) 0#3,
      host := { s.host with
        hpc := s.host.hpc + 1, st := some 1#3, hv := none,
        sources := s.host.sources.set k
          { data := [], consumed := src.consumed + bs.length + 1, ended := true } } }

/-- R71, R73, tier 2: HOST_READ of a source that holds a whole encoding consumes exactly its `L` bytes, and ST, HV and the
block are VDEC's outcome on them. HOST_READ as one line and one step is the model's choice (notes/assumptions/10.md). -/
def Obligations.HostReadOfWholeEncodingDecodesIt : Prop :=
  ∀ (s : State) (k : Nat) (src : ByteSource) (b0 : Byte) (bs : List Byte), s.block.busy = false →
    currentStmt s = some (.hostRead k) → s.host.sources[k]? = some src → src.data = b0 :: bs → src.ended = false →
    tz8 b0 ≤ bs.length →
    ∃ t, exec (.vdec (lanesOf (b0 :: bs.take (tz8 b0))) (BitVec.ofNat 4 (tz8 b0 + 1))) s = .next t ∧
      t.block.resStatus ≠ some 1#3 ∧
      step s = .next {
        block := t.block,
        host := { s.host with
          hpc := s.host.hpc + 1, st := t.block.resStatus, hv := t.block.resValue,
          sources := s.host.sources.set k
            { src with data := bs.drop (tz8 b0), consumed := src.consumed + (tz8 b0 + 1) } } }

/-- R73, tier 3: HOST_READ over a source that holds the bytes of `VENC v`, and anything after them, gives OK and `v`, and
leaves the source at the byte after them. HOST_READ as one line and one step is the model's choice
(notes/assumptions/10.md). -/
def Obligations.HostReadOfEncodedValueGivesTheValue : Prop :=
  ∀ (v : U64) (s u : State) (k : Nat) (src : ByteSource) (B : Lanes) (L : BitVec 4) (rest : List Byte),
    exec (.venc v) u = .next { u with block := Block.completed none (some B) (some L) 0#3 } →
    s.block.busy = false → currentStmt s = some (.hostRead k) → s.host.sources[k]? = some src → src.ended = false →
    src.data = (List.range L.toNat).map (lane B) ++ rest →
    step s = .next {
      block := Block.completed (some v) none none 0#3,
      host := { s.host with
        hpc := s.host.hpc + 1, st := some 0#3, hv := some v,
        sources := s.host.sources.set k { src with data := rest, consumed := src.consumed + L.toNat } } }

/-- R74, I10 (a FREE VALUE, notes/assumptions/7.md): of a source that has answered EOF nothing is assumed: some behaviour of
it answers EOF again, and some behaviour delivers a value. HOST_READ as one line and one step is the model's choice
(notes/assumptions/10.md). -/
def Obligations.ReadAfterEofIsTheSourcesOwn : Prop :=
  ∀ (lat : BitVec 3 → Nat) (s : State) (k : Nat) (src : ByteSource), s.block.busy = false →
    currentStmt s = some (.hostRead k) → s.host.sources[k]? = some src → src.ended = true →
    (∃ free t, stepWith lat free s = .next t ∧ t.host.st = some 3#3) ∧
    (∃ free t, stepWith lat free s = .next t ∧ t.host.st = some 0#3 ∧ t.host.hv = some 0#64) ∧
    (∃ free t, stepWith lat free s = .next t ∧ t.host.st = some 1#3)

/-- R62: APPEND is VENC, and then the buffer has grown at its end by exactly the first RES_LEN lanes of RES_BYTES, whether
its value is a literal or `@val`; an `@val` that is UNWRITTEN is the fault of R21. APPEND as one line and one step is the
model's choice (notes/assumptions/10.md). -/
def Obligations.AppendAddsExactlyTheEncodedBytes : Prop :=
  ∀ (s : State) (k : Nat) (old : List Byte) (v : ValueArg), s.block.busy = false → v.wfUnsigned = true →
    currentStmt s = some (.append k v) → s.host.buffers[k]? = some old →
    (∀ x : U64, (match v with | .lit z => x = BitVec.ofInt 64 z | .val => s.host.hv = some x) →
      ∃ (B : Lanes) (L : BitVec 4),
        exec (.venc x) s = .next { s with block := Block.completed none (some B) (some L) 0#3 } ∧
        step s = .next {
          block := Block.completed none (some B) (some L) 0#3,
          host := { s.host with
            hpc := s.host.hpc + 1, st := some 0#3, hv := none,
            buffers := s.host.buffers.set k (old ++ (List.range L.toNat).map (lane B)) } }) ∧
    (v = .val → s.host.hv = none → step s = .fault .readUnwritten)

/-- R55: SENC is `ZZENC s` then `VENC @val`, and SDEC is `VDEC [bytes]` and, where that is OK, `ZZDEC @val`: the step leaves the
block, ST and HV as the last of its commands does. That a pseudo-instruction is one line and one step is the model's choice
(notes/assumptions/10.md). -/
def Obligations.SencAndSdecRunTheirExpansions : Prop :=
  ∀ (s : State), s.block.busy = false →
    (∀ (v : ValueArg) (x : U64), v.wfSigned = true → currentStmt s = some (.senc v) →
      (match v with | .lit z => x = BitVec.ofInt 64 z | .val => s.host.hv = some x) →
      ∃ t w u, exec (.zzenc x) s = .next t ∧ t.block.resValue = some w ∧ exec (.venc w) t = .next u ∧
        step s = .next (s.afterScriptCommand u.block)) ∧
    (∀ (b : BytesArg) (B : Lanes) (L : BitVec 4), b.wf = true → currentStmt s = some (.sdec b) →
      (match b with
        | .list bs => B = lanesOf bs ∧ L = BitVec.ofNat 4 bs.length
        | .enc => s.block.resValid = true ∧ s.block.resBytes = some B ∧ s.block.resLen = some L) →
      ∃ t, exec (.vdec B L) s = .next t ∧
        (t.block.resStatus ≠ some 0#3 → step s = .next (s.afterScriptCommand t.block)) ∧
        (t.block.resStatus = some 0#3 → ∃ w u, t.block.resValue = some w ∧ exec (.zzdec w) t = .next u ∧
          step s = .next (s.afterScriptCommand u.block)))

/-- R55, R68, R83: SENC of a signed value and then SDEC of what it wrote give the value's pattern back, with OK.
That a pseudo-instruction is one line and one step is the model's choice (notes/assumptions/10.md). -/
def Obligations.SignedValueSurvivesSencThenSdec : Prop :=
  ∀ (s : State) (z : Int), s.block.busy = false → -2 ^ 63 ≤ z → z < 2 ^ 63 →
    currentStmt s = some (.senc (.lit z)) → (s.host.script[s.host.hpc + 1]?).map Line.stmt = some (.sdec .enc) →
    ∃ t, step s = .next t ∧ ∃ u, step t = .next u ∧ u.host.st = some 0#3 ∧ u.host.hpc = s.host.hpc + 2 ∧
      u.block = Block.completed (some (BitVec.ofInt 64 z)) none none 0#3 ∧
      ∃ w : U64, u.host.hv = some w ∧ w.toInt = z

/-! ## Invariants, and the platform -/

/-- The invariant of Safety.lean: register values legal (R14, R16 to R18), results exclusive (R23, R84), BUSY, RES_VALID and the
command in flight consistent (R19, R20, R27), ST a code that is produced (R55). Every step keeps it. -/
def Obligations.EveryStepKeepsTheInvariant : Prop :=
  ∀ s t : State, s.inv = true → step s = .next t → t.inv = true

/-- The reset state meets the invariant. -/
def Obligations.ResetMeetsTheInvariant : Prop := State.reset.inv = true

/-- R20, R14: what the invariant says of a single state, spelled out: BUSY = 1 implies RES_VALID = 0, RES_LEN is 1 to 9,
RES_STATUS is 0, 1, 2 or 4, lanes at or beyond RES_LEN are 0. It holds after every step from a state with the invariant. -/
def Obligations.RegistersHoldLegalValuesAfterEveryStep : Prop :=
  ∀ s t : State, s.inv = true → step s = .next t →
    (t.block.busy = true → t.block.resValid = false) ∧
    (∀ L, t.block.resLen = some L → 1 ≤ L.toNat ∧ L.toNat ≤ 9) ∧
    (∀ c, t.block.resStatus = some c → c = 0#3 ∨ c = 1#3 ∨ c = 2#3 ∨ c = 4#3) ∧
    (∀ B, t.block.resBytes = some B → ∃ L, t.block.resLen = some L ∧ ∀ i, L.toNat ≤ i → i < 9 → lane B i = 0#8)

/-- R37, R98: steps of two instances of a platform commute, and leave the other instances as they are. The
platform as a list of machines is the model's choice (notes/assumptions/14.md). -/
def Obligations.InstancesDoNotInfluenceEachOther : Prop :=
  ∀ (lat : Nat → BitVec 3 → Nat) (free : Nat → Nat → Option Byte) (p : List State) (j k : Nat) (s u s' u' : State),
    j ≠ k → p[j]? = some s → p[k]? = some u →
    stepWith (lat j) (free j) s = .next s' → stepWith (lat k) (free k) u = .next u' →
    ∃ q, platformRun lat free [j, k] p = .next q ∧ platformRun lat free [k, j] p = .next q ∧
      q[j]? = some s' ∧ q[k]? = some u' ∧ ∀ m, m ≠ j → m ≠ k → q[m]? = p[m]?
end

