-- ==== Sys2Proof/Laws/Operands.lean ====
section
/-! SUPPORT. One specification lemma per operator of Machine/Operands.lean, pushed down to naturals: later proofs cite
these and do not unfold the operators. -/

namespace Sys2Proof.Machine

theorem leastBelow_le (p : Nat → Bool) (n : Nat) : leastBelow p n ≤ n := by
  induction n with
  | zero => simp [leastBelow]
  | succ n ih => unfold leastBelow; split <;> [omega; split <;> omega]

theorem leastBelow_holds (p : Nat → Bool) (n : Nat) (h : leastBelow p n < n) : p (leastBelow p n) = true := by
  induction n with
  | zero => simp at h
  | succ n ih =>
    unfold leastBelow at h ⊢
    split at h
    · next h1 => rw [if_pos h1]; exact ih h1
    · next h1 =>
      rw [if_neg h1]
      split at h
      · next h2 => rw [if_pos h2]; exact h2
      · omega

theorem leastBelow_min (p : Nat → Bool) (n i : Nat) (h : i < leastBelow p n) : p i = false := by
  induction n with
  | zero => simp [leastBelow] at h
  | succ n ih =>
    unfold leastBelow at h
    have := leastBelow_le p n
    split at h
    · exact ih h
    · next h1 =>
      have hn : leastBelow p n = n := by omega
      split at h
      · exact ih (by omega)
      · next h2 =>
        rcases Nat.lt_or_ge i n with hi | hi
        · exact ih (by omega)
        · have : i = n := by omega
          subst this; simpa using h2

/-- The three facts pin the value. -/
theorem leastBelow_eq {p : Nat → Bool} {n k : Nat} (hk : k ≤ n) (hp : k < n → p k = true)
    (hm : ∀ i < k, p i = false) : leastBelow p n = k := by
  rcases Nat.lt_trichotomy (leastBelow p n) k with h | h | h
  · have := leastBelow_holds p n (by omega)
    simp [hm _ h] at this
  · exact h
  · have h1 := leastBelow_min p n k h
    have h2 := leastBelow_le p n
    simp [hp (by omega)] at h1

/-! ## tz8 -/

theorem tz8_le (b : Byte) : tz8 b ≤ 8 := leastBelow_le _ _

theorem tz8_bit (b : Byte) (h : tz8 b < 8) : b.getLsbD (tz8 b) = true :=
  leastBelow_holds (fun i => b.getLsbD i) 8 h

theorem tz8_low (b : Byte) (i : Nat) (h : i < tz8 b) : b.getLsbD i = false :=
  leastBelow_min (fun i => b.getLsbD i) 8 i h

theorem tz8_eq {b : Byte} {k : Nat} (hk : k ≤ 8) (hb : k < 8 → b.getLsbD k = true)
    (hl : ∀ i < k, b.getLsbD i = false) : tz8 b = k := leastBelow_eq hk hb hl

/-- A byte with tag `n < 8` is an odd number shifted left by `n`. -/
theorem tz8_shape : ∀ b : Byte, tz8 b < 8 → b.toNat % 2 ^ (tz8 b + 1) = 2 ^ tz8 b := by decide

theorem tz8_eight : ∀ b : Byte, tz8 b = 8 ↔ b = 0#8 := by decide

/-! ## ntag -/

theorem ntag_le (v : U64) : ntag v ≤ 8 := leastBelow_le _ _

theorem ntag_fits (v : U64) (h : ntag v < 8) : v.toNat < 2 ^ (7 * (ntag v + 1)) := by
  exact of_decide_eq_true (leastBelow_holds (fun k => decide (v.toNat < 2 ^ (7 * (k + 1)))) 8 h)

theorem ntag_minimal (v : U64) (h : 0 < ntag v) : 2 ^ (7 * ntag v) ≤ v.toNat := by
  have := leastBelow_min (fun k => decide (v.toNat < 2 ^ (7 * (k + 1)))) 8 (ntag v - 1)
    (show ntag v - 1 < ntag v by omega)
  rw [show ntag v - 1 + 1 = ntag v by omega] at this
  simpa using this

/-- A tag whose form holds `v`, and whose next smaller form does not, is `ntag v`. -/
theorem ntag_eq {v : U64} {k : Nat} (hk : k ≤ 8) (hf : k < 8 → v.toNat < 2 ^ (7 * (k + 1)))
    (hm : k ≠ 0 → 2 ^ (7 * k) ≤ v.toNat) : ntag v = k := by
  refine leastBelow_eq hk (fun h => by simpa using hf h) fun i hi => ?_
  have h1 := hm (by omega)
  have h2 : 2 ^ (7 * (i + 1)) ≤ 2 ^ (7 * k) := Nat.pow_le_pow_right (by omega) (by omega)
  simp only [decide_eq_false_iff_not]; omega

/-- A length of 1 to 9 fits the four bits of RES_LEN. -/
theorem ofNat4_toNat {n : Nat} (h : n ≤ 8) : (BitVec.ofNat 4 (n + 1)).toNat = n + 1 := by
  rw [BitVec.toNat_ofNat]; omega

/-! ## lanes and little-endian words -/

/-- Lanes are equal numbers when they agree lane by lane: the first `k` lanes are `B mod 2^(8k)`. -/
theorem mod_eq_of_lanes {B B' : Lanes} {k : Nat} (h : ∀ i < k, lane B i = lane B' i) :
    B.toNat % 2 ^ (8 * k) = B'.toNat % 2 ^ (8 * k) := by
  apply Nat.eq_of_testBit_eq
  intro p
  rw [Nat.testBit_mod_two_pow, Nat.testBit_mod_two_pow]
  by_cases hp : p < 8 * k
  · have e := congrArg (fun b : Byte => b.getLsbD (p % 8)) (h (p / 8) (by omega))
    simp only [lane, BitVec.getLsbD_extractLsb', show p % 8 < 8 by omega,
      show 8 * (p / 8) + p % 8 = p by omega, decide_true, Bool.true_and] at e
    simp only [BitVec.testBit_toNat, hp, e]
  · simp [hp]

theorem lanes_of_mod_eq {B B' : Lanes} {k : Nat} (h : B.toNat % 2 ^ (8 * k) = B'.toNat % 2 ^ (8 * k)) :
    ∀ i < k, lane B i = lane B' i := by
  intro i hi
  apply BitVec.eq_of_getLsbD_eq
  intro j hj
  have e := congrArg (fun n : Nat => n.testBit (8 * i + j)) h
  simp only [Nat.testBit_mod_two_pow, show 8 * i + j < 8 * k by omega, decide_true, Bool.true_and,
    BitVec.testBit_toNat] at e
  simp only [lane, BitVec.getLsbD_extractLsb', e]

theorem lane_toNat (B : Lanes) (i : Nat) : (lane B i).toNat = B.toNat / 2 ^ (8 * i) % 256 := by
  simp [lane, BitVec.extractLsb'_toNat, Nat.shiftRight_eq_div_pow]

theorem leWord_eq (B : Lanes) (lo k : Nat) : leWord B lo k = B.toNat / 2 ^ (8 * lo) % 2 ^ (8 * k) := by
  induction k with
  | zero => simp [leWord, Nat.mod_one]
  | succ k ih =>
    rw [leWord, ih, lane_toNat]
    have e : B.toNat / 2 ^ (8 * (lo + k)) = B.toNat / 2 ^ (8 * lo) / 2 ^ (8 * k) := by
      rw [Nat.div_div_eq_div_mul, ← Nat.pow_add]; congr 2; ring
    rw [e, show 8 * (k + 1) = 8 * k + 8 by ring, Nat.pow_add, Nat.mod_mul]
    ring

theorem decodeValue_tagged (B : Lanes) (n : Nat) (h : n < 8) :
    (decodeValue B n).toNat = B.toNat % 2 ^ (8 * (n + 1)) / 2 ^ (n + 1) := by
  have h1 : B.toNat % 2 ^ (8 * (n + 1)) < 2 ^ 64 :=
    Nat.lt_of_lt_of_le (Nat.mod_lt _ (by positivity)) (Nat.pow_le_pow_right (by omega) (by omega))
  rw [decodeValue, if_pos h, shr, BitVec.toNat_ushiftRight, BitVec.toNat_ofNat, leWord_eq]
  simp only [Nat.mul_zero, Nat.pow_zero, Nat.div_one, Nat.mod_eq_of_lt h1, Nat.shiftRight_eq_div_pow]

theorem decodeValue_maximal (B : Lanes) (n : Nat) (h : ¬ n < 8) : (decodeValue B n).toNat = B.toNat / 256 := by
  have h1 : B.toNat / 256 < 2 ^ 64 := by have := B.isLt; omega
  rw [decodeValue, if_neg h, BitVec.toNat_ofNat, leWord_eq]
  simp only [Nat.mul_one, Nat.reducePow] at h1 ⊢
  omega

theorem decodeValue_toNat (B : Lanes) (n : Nat) :
    (decodeValue B n).toNat =
      (if n < 8 then B.toNat % 2 ^ (8 * (n + 1)) / 2 ^ (n + 1) else B.toNat / 2 ^ 8) := by
  split
  · next h => exact decodeValue_tagged B n h
  · next h => exact decodeValue_maximal B n h

theorem encodeLanes_tagged (v : U64) (n : Nat) (h : n < 8) (hv : v.toNat < 2 ^ (7 * (n + 1))) :
    (encodeLanes v n).toNat = (2 * v.toNat + 1) * 2 ^ n := by
  have hb : (2 * v.toNat + 1) * 2 ^ n < 2 ^ (8 * (n + 1)) := by
    have : (2 * v.toNat + 1) < 2 ^ (7 * (n + 1) + 1) := by rw [Nat.pow_succ]; omega
    calc (2 * v.toNat + 1) * 2 ^ n < 2 ^ (7 * (n + 1) + 1) * 2 ^ n :=
          Nat.mul_lt_mul_of_pos_right this (by positivity)
      _ = 2 ^ (8 * (n + 1)) := by rw [← Nat.pow_add]; congr 1; ring
  have hb' : (2 * v.toNat + 1) * 2 ^ n < 2 ^ 64 :=
    Nat.lt_of_lt_of_le hb (Nat.pow_le_pow_right (by omega) (by omega))
  have h1 : 2 * v.toNat + 1 < 2 ^ 64 := by
    have : 1 ≤ 2 ^ n := Nat.one_le_two_pow
    nlinarith
  have h2 : (shl v 1 ||| 1#64).toNat = 2 * v.toNat + 1 := by
    have e : (shl v 1).toNat = 2 * v.toNat := by
      simp [shl, Nat.shiftLeft_eq]; omega
    rw [BitVec.toNat_or, e]
    simpa using Nat.two_pow_add_eq_or_of_lt (i := 1) (b := 1) (by omega) v.toNat |>.symm
  have h3 : (shl (shl v 1 ||| 1#64) n).toNat = (2 * v.toNat + 1) * 2 ^ n := by
    rw [shl, BitVec.toNat_shiftLeft, h2, Nat.shiftLeft_eq, Nat.mod_eq_of_lt hb']
  rw [encodeLanes, if_pos h, BitVec.toNat_setWidth, h3, Nat.mod_eq_of_lt (by omega)]

theorem encodeLanes_maximal (v : U64) (n : Nat) (h : ¬ n < 8) : (encodeLanes v n).toNat = v.toNat * 256 := by
  rw [encodeLanes, if_neg h, BitVec.toNat_append]
  simp [Nat.shiftLeft_eq]

/-- The tag of an encoding is in its first lane. -/
theorem tz8_encodeLanes (v : U64) : tz8 (lane (encodeLanes v (ntag v)) 0) = ntag v := by
  by_cases h : ntag v < 8
  · have e := encodeLanes_tagged v _ h (ntag_fits v h)
    have bit (i : Nat) (hi : i < 8) : (lane (encodeLanes v (ntag v)) 0).getLsbD i
        = (decide (ntag v ≤ i) && (2 * v.toNat + 1).testBit (i - ntag v)) := by
      rw [← BitVec.testBit_toNat, lane_toNat, e, show (256 : Nat) = 2 ^ 8 by rfl, Nat.testBit_mod_two_pow]
      simp [hi, Nat.testBit_mul_two_pow]
    refine tz8_eq (ntag_le v) (fun _ => ?_) fun i hi => ?_
    · rw [bit _ h]; simp
    · rw [bit _ (by omega)]; simp; omega
  · have e := encodeLanes_maximal v _ h
    have h8 : ntag v = 8 := by have := ntag_le v; omega
    rw [h8] at e ⊢
    refine (tz8_eight _).2 (BitVec.eq_of_toNat_eq ?_)
    rw [lane_toNat, e]; simp

/-- A form decodes its own encoding, whatever lanes follow the encoding. -/
theorem decodeValue_encodeLanes (v : U64) (B : Lanes)
    (hB : B.toNat % 2 ^ (8 * (ntag v + 1)) = (encodeLanes v (ntag v)).toNat % 2 ^ (8 * (ntag v + 1))) :
    decodeValue B (ntag v) = v := by
  apply BitVec.eq_of_toNat_eq
  by_cases h : ntag v < 8
  · have hf := ntag_fits v h
    rw [decodeValue_tagged _ _ h, hB, encodeLanes_tagged v _ h hf]
    generalize ntag v = n at *
    have hb : (2 * v.toNat + 1) * 2 ^ n < 2 ^ (8 * (n + 1)) := by
      have : (2 * v.toNat + 1) < 2 ^ (7 * (n + 1) + 1) := by rw [Nat.pow_succ]; omega
      calc (2 * v.toNat + 1) * 2 ^ n < 2 ^ (7 * (n + 1) + 1) * 2 ^ n :=
            Nat.mul_lt_mul_of_pos_right this (by positivity)
        _ = 2 ^ (8 * (n + 1)) := by rw [← Nat.pow_add]; congr 1; ring
    rw [Nat.mod_eq_of_lt hb, Nat.pow_succ, Nat.mul_comm (2 ^ n) 2,
      Nat.mul_div_mul_right _ _ (by positivity)]
    omega
  · have h8 : ntag v = 8 := by have := ntag_le v; omega
    rw [h8] at hB ⊢
    rw [decodeValue_maximal _ _ (by omega)]
    rw [encodeLanes_maximal v _ (by omega)] at hB
    have := B.isLt
    have := v.isLt
    rw [Nat.mod_eq_of_lt (by simpa using B.isLt), Nat.mod_eq_of_lt (by simp; omega)] at hB
    omega

/-- The value of an encoding depends on its own lanes only (R65). -/
theorem decodeValue_congr {B B' : Lanes} {n : Nat} (hn : n ≤ 8) (h : ∀ i < n + 1, lane B i = lane B' i) :
    decodeValue B n = decodeValue B' n := by
  have e := mod_eq_of_lanes h
  apply BitVec.eq_of_toNat_eq
  rw [decodeValue_toNat, decodeValue_toNat]
  split
  · rw [e]
  · obtain rfl : n = 8 := by omega
    rw [Nat.mod_eq_of_lt (by simpa using B.isLt), Nat.mod_eq_of_lt (by simpa using B'.isLt)] at e
    rw [e]

/-! ## the arithmetic shift of R12 -/

/-- `a >>a 63` is 0 or all ones by the sign bit (R12). -/
theorem sar_sixty_three (v : U64) : sar v 63 = if v.msb then BitVec.allOnes 64 else 0#64 := by
  apply BitVec.eq_of_getLsbD_eq
  intro i hi
  rw [sar, BitVec.getLsbD_sshiftRight]
  have : (if 63 + i < 64 then v.getLsbD (63 + i) else v.msb) = v.msb := by
    split
    · obtain rfl : i = 0 := by omega
      rw [BitVec.msb_eq_getLsbD_last]
    · rfl
  rw [this]
  cases v.msb
  · simp
  · rw [if_pos rfl, BitVec.getLsbD_allOnes]; simp [hi]

/-! ## canonical form -/

theorem canonReject_iff (b0 : Byte) (v : U64) :
    canonReject b0 v = true ↔ tz8 b0 ≠ 0 ∧ v.toNat < 2 ^ (7 * tz8 b0) := by simp [canonReject]

theorem canonReject_encodeLanes (v : U64) : canonReject (lane (encodeLanes v (ntag v)) 0) v = false := by
  rw [Bool.eq_false_iff, Ne, canonReject_iff, tz8_encodeLanes]
  rintro ⟨h1, h2⟩
  have := ntag_minimal v (by omega)
  omega

/-- A value that its tag's form holds and its validator accepts has that tag as its minimal one. -/
theorem ntag_of_accepted {b0 : Byte} {v : U64} (h : canonReject b0 v = false)
    (hf : tz8 b0 < 8 → v.toNat < 2 ^ (7 * (tz8 b0 + 1))) : ntag v = tz8 b0 := by
  refine ntag_eq (tz8_le b0) hf fun h0 => ?_
  rw [Bool.eq_false_iff, Ne, canonReject_iff] at h
  by_contra hc
  exact h ⟨h0, by omega⟩

/-- A tagged form's value is below `2^(7(n+1))` (R50). -/
theorem decodeValue_lt (B : Lanes) (n : Nat) (h : n < 8) : (decodeValue B n).toNat < 2 ^ (7 * (n + 1)) := by
  rw [decodeValue_tagged B n h]
  apply Nat.div_lt_of_lt_mul
  rw [← Nat.pow_add, show n + 1 + 7 * (n + 1) = 8 * (n + 1) by ring]
  exact Nat.mod_lt _ (by positivity)

end Sys2Proof.Machine
end

