-- ==== Sys2Proof/Laws/State.lean ====
section
/-! SUPPORT. What each named update of the state does to each field, so that no later proof unfolds a record update. -/

namespace Sys2Proof.Machine

/-! ## afterCommand -/

@[simp] theorem afterCommand_block (s : State) : (afterCommand s).block = s.block := rfl
@[simp] theorem afterCommand_script (s : State) : (afterCommand s).host.script = s.host.script := rfl
@[simp] theorem afterCommand_hpc (s : State) : (afterCommand s).host.hpc = s.host.hpc := rfl
@[simp] theorem afterCommand_st (s : State) : (afterCommand s).host.st = s.block.resStatus := rfl
@[simp] theorem afterCommand_hv (s : State) : (afterCommand s).host.hv = s.block.resValue := rfl
@[simp] theorem afterCommand_sources (s : State) : (afterCommand s).host.sources = s.host.sources := rfl
@[simp] theorem afterCommand_buffers (s : State) : (afterCommand s).host.buffers = s.host.buffers := rfl
@[simp] theorem afterCommand_lastRead (s : State) : (afterCommand s).host.lastRead = s.host.lastRead := rfl
@[simp] theorem afterCommand_draws (s : State) : (afterCommand s).host.draws = s.host.draws := rfl

/-! ## setHpc and advance -/

@[simp] theorem setHpc_block (n : Nat) (s : State) : (setHpc n s).block = s.block := rfl
@[simp] theorem setHpc_script (n : Nat) (s : State) : (setHpc n s).host.script = s.host.script := rfl
@[simp] theorem setHpc_hpc (n : Nat) (s : State) : (setHpc n s).host.hpc = n := rfl
@[simp] theorem setHpc_st (n : Nat) (s : State) : (setHpc n s).host.st = s.host.st := rfl
@[simp] theorem setHpc_hv (n : Nat) (s : State) : (setHpc n s).host.hv = s.host.hv := rfl
@[simp] theorem setHpc_sources (n : Nat) (s : State) : (setHpc n s).host.sources = s.host.sources := rfl
@[simp] theorem setHpc_buffers (n : Nat) (s : State) : (setHpc n s).host.buffers = s.host.buffers := rfl
@[simp] theorem setHpc_lastRead (n : Nat) (s : State) : (setHpc n s).host.lastRead = s.host.lastRead := rfl
@[simp] theorem setHpc_draws (n : Nat) (s : State) : (setHpc n s).host.draws = s.host.draws := rfl
@[simp] theorem advance_block (s : State) : (advance s).block = s.block := rfl
@[simp] theorem advance_script (s : State) : (advance s).host.script = s.host.script := rfl
@[simp] theorem advance_hpc (s : State) : (advance s).host.hpc = s.host.hpc + 1 := rfl
@[simp] theorem advance_st (s : State) : (advance s).host.st = s.host.st := rfl
@[simp] theorem advance_hv (s : State) : (advance s).host.hv = s.host.hv := rfl
@[simp] theorem advance_sources (s : State) : (advance s).host.sources = s.host.sources := rfl
@[simp] theorem advance_buffers (s : State) : (advance s).host.buffers = s.host.buffers := rfl
@[simp] theorem advance_lastRead (s : State) : (advance s).host.lastRead = s.host.lastRead := rfl
@[simp] theorem advance_draws (s : State) : (advance s).host.draws = s.host.draws := rfl

/-! ## setHostResult -/

@[simp] theorem setHostResult_block (c : Status) (v : Option U64) (s : State) : (setHostResult c v s).block = s.block := rfl
@[simp] theorem setHostResult_script (c : Status) (v : Option U64) (s : State) : (setHostResult c v s).host.script = s.host.script := rfl
@[simp] theorem setHostResult_hpc (c : Status) (v : Option U64) (s : State) : (setHostResult c v s).host.hpc = s.host.hpc := rfl
@[simp] theorem setHostResult_st (c : Status) (v : Option U64) (s : State) : (setHostResult c v s).host.st = some (statusCode c) := rfl
@[simp] theorem setHostResult_hv (c : Status) (v : Option U64) (s : State) : (setHostResult c v s).host.hv = v := rfl
@[simp] theorem setHostResult_sources (c : Status) (v : Option U64) (s : State) : (setHostResult c v s).host.sources = s.host.sources := rfl
@[simp] theorem setHostResult_buffers (c : Status) (v : Option U64) (s : State) : (setHostResult c v s).host.buffers = s.host.buffers := rfl
@[simp] theorem setHostResult_lastRead (c : Status) (v : Option U64) (s : State) : (setHostResult c v s).host.lastRead = s.host.lastRead := rfl
@[simp] theorem setHostResult_draws (c : Status) (v : Option U64) (s : State) : (setHostResult c v s).host.draws = s.host.draws := rfl

/-! ## a command's completion, and reset -/

@[simp] theorem toBlock_resValue (r : Results) : r.toBlock.resValue = r.value := rfl
@[simp] theorem toBlock_resBytes (r : Results) : r.toBlock.resBytes = r.bytes := rfl
@[simp] theorem toBlock_resLen (r : Results) : r.toBlock.resLen = r.len := rfl
@[simp] theorem toBlock_resStatus (r : Results) : r.toBlock.resStatus = some (statusCode r.status) := rfl
@[simp] theorem toBlock_resValid (r : Results) : r.toBlock.resValid = true := rfl
@[simp] theorem toBlock_busy (r : Results) : r.toBlock.busy = false := rfl
@[simp] theorem toBlock_inflight (r : Results) : r.toBlock.inflight = none := rfl
@[simp] theorem reset_resValue : Block.reset.resValue = none := rfl
@[simp] theorem reset_resBytes : Block.reset.resBytes = none := rfl
@[simp] theorem reset_resLen : Block.reset.resLen = none := rfl
@[simp] theorem reset_resStatus : Block.reset.resStatus = none := rfl
@[simp] theorem reset_resValid : Block.reset.resValid = false := rfl
@[simp] theorem reset_busy : Block.reset.busy = false := rfl
@[simp] theorem reset_inflight : Block.reset.inflight = none := rfl
@[simp] theorem raise_status (c : Status) : (raise c).status = c := rfl
@[simp] theorem raise_value (c : Status) : (raise c).value = none := rfl
@[simp] theorem raise_bytes (c : Status) : (raise c).bytes = none := rfl
@[simp] theorem raise_len (c : Status) : (raise c).len = none := rfl

/-! ## withFetchWord -/

@[simp] theorem withFetchWord_block (s : State) (nbits w : Nat) : (s.withFetchWord nbits w).block = s.block := rfl
@[simp] theorem withFetchWord_script (s : State) (nbits w : Nat) :
    (s.withFetchWord nbits w).host.script = setLine s.host.script s.host.hpc { stmt := .packed (tableWordBytes nbits w) } := rfl
@[simp] theorem withFetchWord_hpc (s : State) (nbits w : Nat) :
    (s.withFetchWord nbits w).host.hpc = s.host.hpc := rfl
@[simp] theorem withFetchWord_st (s : State) (nbits w : Nat) :
    (s.withFetchWord nbits w).host.st = s.host.st := rfl
@[simp] theorem withFetchWord_hv (s : State) (nbits w : Nat) :
    (s.withFetchWord nbits w).host.hv = s.host.hv := rfl
@[simp] theorem withFetchWord_sources (s : State) (nbits w : Nat) :
    (s.withFetchWord nbits w).host.sources = s.host.sources := rfl
@[simp] theorem withFetchWord_buffers (s : State) (nbits w : Nat) :
    (s.withFetchWord nbits w).host.buffers = s.host.buffers := rfl
@[simp] theorem withFetchWord_lastRead (s : State) (nbits w : Nat) :
    (s.withFetchWord nbits w).host.lastRead = s.host.lastRead := rfl
@[simp] theorem withFetchWord_draws (s : State) (nbits w : Nat) :
    (s.withFetchWord nbits w).host.draws = s.host.draws := rfl

theorem getElem_setLine (script : List Line) (n : Nat) (l : Line) : (setLine script n l)[n]? = some l := by
  induction n generalizing script with
  | zero => cases script <;> simp [setLine]
  | succ n ih => cases script <;> simp [setLine, ih]

/-- Placing a word makes it the current statement. -/
theorem currentStmt_withFetchWord (s : State) (nbits w : Nat) :
    currentStmt (s.withFetchWord nbits w) = some (.packed (tableWordBytes nbits w)) := by
  simp [currentStmt, getElem_setLine]

end Sys2Proof.Machine
end

