-- ==== Sys2Proof/Laws/Exec.lean ====
section
/-! SUPPORT. What the shared operations can do, said once: the issue of a command, `exec` over all commands, the reads,
the clock edge. Later proofs cite these and unfold no meaning. -/

namespace Sys2Proof.Machine

/-! ## the issue of a command -/

theorem issue_idle {r : Results} {s : State} (h : s.block.busy = false) :
    issue r s = .next { s with block := r.toBlock } := by simp [issue, h]

theorem issue_busy {r : Results} {s : State} (h : s.block.busy = true) :
    issue r s = .fault .protocolViolation := by simp [issue, h]

/-- All that an issue can answer with a next state. -/
theorem issue_next {r : Results} {s t : State} (h : issue r s = .next t) :
    s.block.busy = false ∧ t = { s with block := r.toBlock } := by
  cases hb : s.block.busy
  · rw [issue_idle hb] at h; cases h; exact ⟨rfl, rfl⟩
  · rw [issue_busy hb] at h; cases h

/-! ## exec -/

/-- The results of each command, a function of its operands alone (R13). -/
def resultsOf : Instr → Results
  | .venclen v => venclenResults v
  | .venc v => vencResults v
  | .vdeclen b0 => vdeclenResults b0
  | .vdec bytes avail => vdecResults bytes avail
  | .vcheck b0 v => vcheckResults b0 v
  | .zzenc v => zzencResults v
  | .zzdec v => zzdecResults v
  | .reserved => raise .illegalOp

theorem exec_eq_issue (i : Instr) (s : State) : exec i s = issue (resultsOf i) s := by cases i <;> rfl

theorem exec_idle (i : Instr) {s : State} (h : s.block.busy = false) :
    exec i s = .next { s with block := (resultsOf i).toBlock } := by rw [exec_eq_issue, issue_idle h]

theorem exec_next {i : Instr} {s t : State} (h : exec i s = .next t) :
    s.block.busy = false ∧ t = { s with block := (resultsOf i).toBlock } :=
  issue_next (by rw [← exec_eq_issue]; exact h)

theorem exec_ne_refused (i : Instr) (s : State) (r : Refusal) : exec i s ≠ .refused r := by
  rw [exec_eq_issue, issue]; split <;> simp

/-! ## VDEC's results: truncated input first, then canonical form (R64, R91) -/

theorem vdecResults_truncated {B : Lanes} {a : BitVec 4} (h : availEff a < tz8 (lane B 0) + 1) :
    vdecResults B a = raise .unexpectedEndOfInput := by
  simp only [vdecResults, if_pos h, ite_self]

theorem vdecResults_whole {B : Lanes} {a : BitVec 4} (h : tz8 (lane B 0) + 1 ≤ availEff a) :
    vdecResults B a =
      if canonReject (lane B 0) (decodeValue B (tz8 (lane B 0))) then raise .nonCanonicalEncoding
      else { status := .ok, value := some (decodeValue B (tz8 (lane B 0))) } := by
  have h1 : ¬ availEff a = 0 := by omega
  have h2 : ¬ availEff a < tz8 (lane B 0) + 1 := by omega
  simp only [vdecResults, if_neg h1, if_neg h2]

/-! ## sequencing and reads -/

@[simp] theorem andThen_next (s : State) (k : State → Result) : andThen (.next s) k = k s := rfl
@[simp] theorem andThen_fault (f : Fault) (k : State → Result) : andThen (.fault f) k = .fault f := rfl
@[simp] theorem andThen_refused (r : Refusal) (k : State → Result) : andThen (.refused r) k = .refused r := rfl
@[simp] theorem withRead_ok {α : Type} (a : α) (k : α → Result) : withRead (.ok a) k = k a := rfl
@[simp] theorem withRead_error {α : Type} (f : Fault) (k : α → Result) :
    withRead (.error f : Except Fault α) k = .fault f := rfl

theorem andThen_eq_next {o : Result} {k : State → Result} {t : State} (h : andThen o k = .next t) :
    ∃ s, o = .next s ∧ k s = .next t := by
  cases o with
  | next s => exact ⟨s, rfl, h⟩
  | fault f => cases h
  | refused r => cases h

theorem withRead_eq_next {α : Type} {o : Except Fault α} {k : α → Result} {t : State} (h : withRead o k = .next t) :
    ∃ a, o = .ok a ∧ k a = .next t := by
  cases o with
  | ok a => exact ⟨a, rfl, h⟩
  | error f => cases h

@[simp] theorem readField_some {α : Type} (a : α) : readField (some a) = .ok a := rfl
@[simp] theorem readField_none {α : Type} : readField (none : Option α) = .error .readUnwritten := rfl

theorem readResult_valid {α : Type} {b : Block} (h : b.resValid = true) (f : Option α) :
    readResult b f = readField f := by simp [readResult, h]

theorem readResult_ok {α : Type} {b : Block} {f : Option α} {a : α} (h : readResult b f = .ok a) :
    b.resValid = true ∧ f = some a := by
  cases hv : b.resValid
  · simp [readResult, hv] at h
  · rw [readResult_valid hv] at h
    cases f with
    | none => cases h
    | some x => cases h; exact ⟨rfl, rfl⟩

/-! ## the record -/

/-- Every bit of a packed record is a bit of the field R40 puts there. -/
theorem packRecord_bit (op : BitVec 3) (v : U64) (B : Lanes) (a : BitVec 4) (i : Nat) :
    (packRecord op v B a).getLsbD i =
      if i < 3 then op.getLsbD i
      else if i < 67 then v.getLsbD (i - 3)
      else if i < 139 then B.getLsbD (i - 67)
      else a.getLsbD (i - 139) := by
  have e : (packRecord op v B a).getLsbD i = (a ++ B ++ v ++ op).getLsbD i := rfl
  rw [e]
  simp only [BitVec.getLsbD_append]
  by_cases h1 : i < 3
  · simp [h1]
  by_cases h2 : i < 67
  · simp [h1, h2, show i - 3 < 64 by omega]
  by_cases h3 : i < 139
  · simp [h1, h2, h3, show ¬ i - 3 < 64 by omega, show i - 3 - 64 = i - 67 by omega, show i - 67 < 72 by omega]
  · simp [h1, h2, h3, show ¬ i - 3 < 64 by omega, show ¬ i - 3 - 64 < 72 by omega,
      show i - 3 - 64 - 72 = i - 139 by omega]

@[simp] theorem recordOp_pack (op : BitVec 3) (v : U64) (B : Lanes) (a : BitVec 4) :
    recordOp (packRecord op v B a) = op := by
  apply BitVec.eq_of_getLsbD_eq
  intro i hi
  rw [recordOp, BitVec.getLsbD_extractLsb', packRecord_bit]
  simp [hi]

@[simp] theorem recordValue_pack (op : BitVec 3) (v : U64) (B : Lanes) (a : BitVec 4) :
    recordValue (packRecord op v B a) = v := by
  apply BitVec.eq_of_getLsbD_eq
  intro i hi
  rw [recordValue, BitVec.getLsbD_extractLsb', packRecord_bit]
  simp [hi, show 3 + i < 67 by omega]

@[simp] theorem recordBytes_pack (op : BitVec 3) (v : U64) (B : Lanes) (a : BitVec 4) :
    recordBytes (packRecord op v B a) = B := by
  apply BitVec.eq_of_getLsbD_eq
  intro i hi
  rw [recordBytes, BitVec.getLsbD_extractLsb', packRecord_bit]
  simp [hi, show ¬ 67 + i < 3 by omega, show ¬ 67 + i < 67 by omega, show 67 + i < 139 by omega]

@[simp] theorem recordAvail_pack (op : BitVec 3) (v : U64) (B : Lanes) (a : BitVec 4) :
    recordAvail (packRecord op v B a) = a := by
  apply BitVec.eq_of_getLsbD_eq
  intro i hi
  rw [recordAvail, BitVec.getLsbD_extractLsb', packRecord_bit]
  simp [hi, show ¬ 139 + i < 3 by omega, show ¬ 139 + i < 67 by omega, show ¬ 139 + i < 139 by omega]

/-! ## byte lists -/

@[simp] theorem length_bytesLE (k n : Nat) : (bytesLE k n).length = k := by
  induction k generalizing n with
  | zero => rfl
  | succ k ih => simp [bytesLE, ih]

theorem leList_bytesLE (k n : Nat) : leList (bytesLE k n) = n % 256 ^ k := by
  induction k generalizing n with
  | zero => simp [bytesLE, leList, Nat.mod_one]
  | succ k ih =>
    rw [bytesLE, leList, ih, BitVec.toNat_ofNat, show (2 : Nat) ^ 8 = 256 by rfl]
    rw [Nat.pow_succ, Nat.mul_comm _ 256, Nat.mod_mul]

theorem leList_lt (bs : List Byte) : leList bs < 256 ^ bs.length := by
  induction bs with
  | nil => simp [leList]
  | cons b bs ih =>
    have := b.isLt
    simp only [leList, List.length_cons, Nat.pow_succ]
    omega

theorem leList_take (S : List Byte) (k : Nat) : leList (S.take k) = leList S % 256 ^ k := by
  induction k generalizing S with
  | zero => simp [leList, Nat.mod_one]
  | succ k ih =>
    cases S with
    | nil => simp [leList]
    | cons b S =>
      simp only [List.take_succ_cons, leList, ih]
      rw [Nat.pow_succ, Nat.mul_comm (256 ^ k), Nat.mod_mul]
      have := b.isLt
      rw [show (b.toNat + 256 * leList S) % 256 = b.toNat by omega,
        show (b.toNat + 256 * leList S) / 256 = leList S by omega]

theorem leList_drop_one (S : List Byte) : leList (S.drop 1) = leList S / 256 := by
  cases S with
  | nil => simp [leList]
  | cons b S => have := b.isLt; simp only [List.drop_succ_cons, List.drop_zero, leList]; omega

/-- Byte `i` of a little-endian number is element `i` of its list. -/
theorem leList_byte (bs : List Byte) (i : Nat) : leList bs / 2 ^ (8 * i) % 256 = (bs.getD i 0#8).toNat := by
  induction bs generalizing i with
  | nil => simp [leList]
  | cons b bs ih =>
    have := b.isLt
    cases i with
    | zero => simp [leList]; omega
    | succ i =>
      have e : leList (b :: bs) / 2 ^ (8 * (i + 1)) = leList bs / 2 ^ (8 * i) := by
        rw [show 8 * (i + 1) = 8 + 8 * i by ring, Nat.pow_add, ← Nat.div_div_eq_div_mul, leList]
        congr 1; omega
      rw [e, ih]; simp

theorem lanesOf_toNat (S : List Byte) (h : S.length ≤ 9) : (lanesOf S).toNat = leList S := by
  rw [lanesOf, BitVec.toNat_ofNat, Nat.mod_eq_of_lt]
  calc leList S < 256 ^ S.length := leList_lt S
    _ ≤ 256 ^ 9 := Nat.pow_le_pow_right (by omega) h
    _ = 2 ^ 72 := by norm_num

/-- The lanes a byte list drives are its bytes, then zeros (R55). -/
theorem lane_lanesOf (bs : List Byte) (h : bs.length ≤ 9) (i : Nat) : lane (lanesOf bs) i = bs.getD i 0#8 := by
  apply BitVec.eq_of_toNat_eq
  rw [lane_toNat, lanesOf_toNat _ h, leList_byte]

/-- Lane 0 of a byte widened to nine lanes is the byte. -/
theorem lane_setWidth (b : Byte) : lane (b.setWidth 72) 0 = b := by
  apply BitVec.eq_of_toNat_eq
  rw [lane_toNat]
  have := b.isLt
  simp
  omega

/-! ## a command line of the script -/

theorem step_at {s : State} {x : Stmt} (h : currentStmt s = some x) :
    step s = runStmt Config.latency Config.freeRead x s := by simp [step, stepWith, h]

theorem hostCommand_idle {r : Record} {s : State} (h : s.block.busy = false) :
    hostCommand r s = .next (afterCommand { s with block := (resultsOf (decodeRecord r)).toBlock }) := by
  rw [hostCommand, exec_idle _ h, andThen_next]

theorem advance_afterCommand (s : State) (b : Block) :
    advance (afterCommand { s with block := b }) = s.afterScriptCommand b := rfl

end Sys2Proof.Machine
end

