-- ==== Sys2Proof/Laws/PerInstr.lean ====
section
/-! SUPPORT. What is said of every command as syntax, one lemma per constructor: the op field of its record is the op value
R41 gives it. -/

namespace Sys2Proof.Laws.OpField

/-- The op field of a command's record is its op value of R41. -/
def Statement (i : Instr) : Prop := recordOp (encode i) = opOf i

theorem venclen (v : U64) : Statement (.venclen v) := Machine.recordOp_pack _ _ _ _
theorem venc (v : U64) : Statement (.venc v) := Machine.recordOp_pack _ _ _ _
theorem vdeclen (b0 : Byte) : Statement (.vdeclen b0) := Machine.recordOp_pack _ _ _ _
theorem vdec (bytes : Lanes) (avail : BitVec 4) : Statement (.vdec bytes avail) := Machine.recordOp_pack _ _ _ _
theorem vcheck (b0 : Byte) (v : U64) : Statement (.vcheck b0 v) := Machine.recordOp_pack _ _ _ _
theorem zzenc (v : U64) : Statement (.zzenc v) := Machine.recordOp_pack _ _ _ _
theorem zzdec (v : U64) : Statement (.zzdec v) := Machine.recordOp_pack _ _ _ _
theorem reserved : Statement .reserved := Machine.recordOp_pack _ _ _ _

end Sys2Proof.Laws.OpField
end

