-- ==== Sys2Proof/Laws/Script.lean ====
section
/-! SUPPORT. What the host statements can do: a byte source's reads, the value commands, the branches, clock edges, the
end of the script. Later proofs cite these and do not unfold Machine/Script.lean again. -/

namespace Sys2Proof.Machine

theorem stepWith_at {lat : BitVec 3 → Nat} {free : Nat → Option Byte} {s : State} {x : Stmt}
    (h : currentStmt s = some x) : stepWith lat free s = runStmt lat free x s := by simp [stepWith, h]

theorem tick_idle {s : State} (h : s.block.busy = false) : tick s = .next s := by simp [tick, h]

/-- A literal in range is a well-formed operand. -/
theorem wfUnsigned_lit {z : Int} (h : 0 ≤ z) (h2 : z < 2 ^ 64) : (ValueArg.lit z).wfUnsigned = true := by
  simp only [ValueArg.wfUnsigned, Bool.and_eq_true, decide_eq_true_eq]; exact ⟨h, h2⟩

theorem wfSigned_lit {z : Int} (h : -2 ^ 63 ≤ z) (h2 : z < 2 ^ 63) : (ValueArg.lit z).wfSigned = true := by
  simp only [ValueArg.wfSigned, Bool.and_eq_true, decide_eq_true_eq]; exact ⟨h, h2⟩

/-- A command with one value operand, its record decoding to `i`. -/
theorem valueCommand_idle {op : BitVec 3} {v : ValueArg} {s : State} {x : U64} {i : Instr}
    (hb : s.block.busy = false) (hv : valueOf v s = .ok x) (hi : decodeRecord (packRecord op x 0#72 0#4) = i) :
    valueCommand op v s = .next (afterCommand { s with block := (resultsOf i).toBlock }) := by
  rw [valueCommand, hv, withRead_ok, hostCommand_idle hb, hi]

theorem readST_code {h : HostSide} {c : BitVec 3} (hc : h.st = some c) (h4 : c.toNat ≤ 4) : readST h = .ok c := by
  simp [readST, hc, checkStatus, show ¬ 5 ≤ c.toNat by omega]

/-- The label search gives the first line with the label (R55). -/
theorem findLabel_first {script : List Line} {l n : Nat} (h : (script[n]?).bind Line.label = some l)
    (hm : ∀ m < n, (script[m]?).bind Line.label ≠ some l) : findLabel script l = some n := by
  unfold findLabel
  rw [List.findIdx?_eq_some_iff_getElem]
  have hn : n < script.length := by
    by_contra hc
    rw [List.getElem?_eq_none (by omega)] at h; cases h
  refine ⟨hn, ?_, fun j hj => ?_⟩
  · rw [List.getElem?_eq_getElem hn] at h; simpa using h
  · have := hm j hj
    rw [List.getElem?_eq_getElem (by omega)] at this
    simpa using this

/-- A label no line defines is not found. -/
theorem findLabel_none {script : List Line} {l : Nat} (h : ∀ m : Nat, (script[m]?).bind Line.label ≠ some l) :
    findLabel script l = none := by
  rw [findLabel, List.findIdx?_eq_none_iff]
  intro x hx
  obtain ⟨m, hm⟩ := List.getElem?_of_mem hx
  have := h m
  rw [hm] at this
  simpa using this

theorem readST_neverProduced {h : HostSide} {c : BitVec 3} (hc : h.st = some c) (h5 : 5 ≤ c.toNat) :
    readST h = .error .brokenStatus := by simp [readST, hc, checkStatus, h5]

theorem statusCode_le_four (c : Status) : (statusCode c).toNat ≤ 4 := by cases c <;> decide

/-! ## clock edges, and the end of the script -/

/-- A tick writes the block alone (R102): nothing, the cycles left, or the results of the command in flight. -/
theorem tick_next {s t : State} (h : tick s = .next t) :
    t = s ∨
    (∃ f n, s.block.inflight = some f ∧ f.remaining = n + 2 ∧
      t = { s with block := { s.block with inflight := some { f with remaining := n + 1 } } }) ∨
    (∃ f, s.block.inflight = some f ∧ f.remaining ≤ 1 ∧
      t = { s with block := (resultsOf (decodeRecord f.record)).toBlock }) := by
  unfold tick at h
  split at h
  · split at h
    · cases h; exact .inl rfl
    · next f hf =>
      split at h
      · next h0 => exact .inr (.inr ⟨f, hf, by omega, (exec_next h).2⟩)
      · next h1 => exact .inr (.inr ⟨f, hf, by omega, (exec_next h).2⟩)
      · next n hn => cases h; exact .inr (.inl ⟨f, n, hf, hn, rfl⟩)
  · cases h; exact .inl rfl

/-- An edge leaves the host as it is. -/
theorem clockEdge_host {lat : BitVec 3 → Nat} {p : Ports} {s t : State} (h : clockEdge lat p s = .next t) :
    t.host = s.host := by
  unfold clockEdge at h
  split at h
  · cases h; rfl
  split at h
  · unfold startEdge at h
    split at h
    · cases h
    split at h
    · obtain ⟨_, rfl⟩ := exec_next h; rfl
    · cases h; rfl
  · obtain rfl | ⟨f, n, _, _, rfl⟩ | ⟨f, _, _, rfl⟩ := tick_next h <;> rfl

theorem clockEdge_ne_refused (lat : BitVec 3 → Nat) (p : Ports) (s : State) (r : Refusal) :
    clockEdge lat p s ≠ .refused r := by
  intro h
  unfold clockEdge startEdge tick completeInFlight at h
  repeat' split at h
  all_goals first | cases h | exact exec_ne_refused _ _ _ h

/-- Once the script has ended a step is an edge at which nothing is asked of the block (R110). -/
theorem step_ended {s : State} (h : s.ended = true) : step s = tick s := by
  unfold State.ended at h
  cases hc : currentStmt s with
  | none => simp [step, stepWith, hc]
  | some x =>
    rw [hc] at h
    have : x = .halt := by simpa using h
    subst this
    rw [step_at hc]; simp [runStmt, Stmt.wf]

theorem runSteps_idle {s : State} (h : s.ended = true) (hb : s.block.busy = false) (n : Nat) :
    runSteps n s = .next s := by
  induction n with
  | zero => rfl
  | succ n ih => rw [runSteps, step_ended h, tick_idle hb, andThen_next, ih]

/-! ## byte sources -/

theorem hostMemRead_byte (free : Nat → Option Byte) (k : Nat) (h : HostSide) (src : ByteSource) (b : Byte) (bs : List Byte)
    (hs : h.sources[k]? = some src) (he : src.ended = false) (hd : src.data = b :: bs) :
    hostMemRead free k h = some (some b,
      { h with sources := h.sources.set k { src with data := bs, consumed := src.consumed + 1 } }) := by
  simp [hostMemRead, hs, memRead, he, hd]

theorem hostMemRead_eof (free : Nat → Option Byte) (k : Nat) (h : HostSide) (src : ByteSource)
    (hs : h.sources[k]? = some src) (he : src.ended = false) (hd : src.data = []) :
    hostMemRead free k h = some (none, { h with sources := h.sources.set k { src with ended := true } }) := by
  simp [hostMemRead, hs, memRead, he, hd]

/-- After its EOF a source's answer is the next free value. -/
theorem hostMemRead_ended (free : Nat → Option Byte) (k : Nat) (h : HostSide) (src : ByteSource)
    (hs : h.sources[k]? = some src) (he : src.ended = true) :
    hostMemRead free k h = some (free h.draws, { h with
      sources := h.sources.set k
        (match free h.draws with
          | some _ => { src with consumed := src.consumed + 1 }
          | none => src),
      draws := h.draws + 1 }) := by
  simp only [hostMemRead, hs, memRead, he, if_true]
  cases free h.draws <;> rfl

/-- Reading touches neither ST nor HV nor the script. -/
theorem hostMemRead_frame {free : Nat → Option Byte} {k : Nat} {h h' : HostSide} {o : Option Byte}
    (e : hostMemRead free k h = some (o, h')) :
    h'.st = h.st ∧ h'.hv = h.hv ∧ h'.script = h.script ∧ h'.hpc = h.hpc ∧ h'.buffers = h.buffers ∧
      h'.lastRead = h.lastRead := by
  unfold hostMemRead at e
  split at e
  · cases e
  · simp at e; rw [← e.2]; exact ⟨rfl, rfl, rfl, rfl, rfl, rfl⟩

theorem readBytes_frame {free : Nat → Option Byte} {src k : Nat} {h h' : HostSide} {o : Option (List Byte)}
    (e : readBytes free src k h = some (o, h')) :
    h'.st = h.st ∧ h'.hv = h.hv ∧ h'.script = h.script ∧ h'.hpc = h.hpc ∧ h'.buffers = h.buffers ∧
      h'.lastRead = h.lastRead := by
  induction k generalizing h o h' with
  | zero => simp [readBytes] at e; rw [← e.2]; exact ⟨rfl, rfl, rfl, rfl, rfl, rfl⟩
  | succ k ih =>
    unfold readBytes at e
    split at e
    · cases e
    · next e1 => simp at e; rw [← e.2]; exact hostMemRead_frame e1
    · next e1 =>
      have f1 := hostMemRead_frame e1
      split at e
      · cases e
      all_goals
        next e2 =>
        have f2 := ih e2
        simp at e
        rw [← e.2]
        exact ⟨f2.1.trans f1.1, f2.2.1.trans f1.2.1, f2.2.2.1.trans f1.2.2.1, f2.2.2.2.1.trans f1.2.2.2.1,
          f2.2.2.2.2.1.trans f1.2.2.2.2.1, f2.2.2.2.2.2.trans f1.2.2.2.2.2⟩

/-- Reading `n` bytes of a source that has not ended: all of them where they are there, or EOF with the rest consumed. -/
theorem readBytes_live (free : Nat → Option Byte) (k n : Nat) (h : HostSide) (src : ByteSource)
    (hs : h.sources[k]? = some src) (he : src.ended = false) :
    readBytes free k n h = if n ≤ src.data.length then
      some (some (src.data.take n), { h with
        sources := h.sources.set k { src with data := src.data.drop n, consumed := src.consumed + n } })
    else
      some (none, { h with
        sources := h.sources.set k { data := [], consumed := src.consumed + src.data.length, ended := true } }) := by
  have hk : k < h.sources.length := by
    by_contra hc; rw [List.getElem?_eq_none (by omega)] at hs; cases hs
  induction n generalizing h src with
  | zero =>
    have : h.sources.set k src = h.sources := by
      apply List.ext_getElem?
      intro i
      rw [List.getElem?_set]
      split
      · next e => subst e; simp [hk]; exact (List.getElem?_eq_some_iff.1 hs).2.symm
      · rfl
    simp [readBytes]
    rw [show ({ data := src.data, consumed := src.consumed, ended := src.ended } : ByteSource) = src from rfl, this]
  | succ n ih =>
    obtain ⟨data, consumed, ended⟩ := src
    simp only at he; subst he
    cases data with
    | nil => simp [readBytes, hostMemRead, hs, memRead]
    | cons b bs =>
      rw [readBytes, hostMemRead_byte free k h _ b bs hs rfl rfl]
      simp only
      rw [ih _ ⟨bs, consumed + 1, false⟩ (by simp [hk]) rfl (by simpa using hk)]
      by_cases hn : n ≤ bs.length <;> simp [hn, Nat.add_assoc, Nat.add_comm 1]

end Sys2Proof.Machine
end

