-- ==== Sys2Proof/Tests/Slice0.lean ====
section
/-! SUPPORT. The model's own tests. Expected results are those of spec/95_test_vectors.md (part L1 is the source's own, parts
L2 and L3 the spec's), or written out from the encoding of R40. Then, for each statement with hypotheses, a witness that
meets them, and for each clause of a statement with several. -/

namespace Sys2Proof.Tests
open Sys2Proof.Machine

/-! ## helpers -/

/-- The block after one command from reset. -/
def blockAfter (i : Instr) : Option Block :=
  match exec i State.reset with
  | .next t => some t.block
  | _ => none

/-- A state whose host is at one statement. -/
def atLine (x : Stmt) (block : Block := Block.reset) (st : Option (BitVec 3) := none) (hv : Option U64 := none) : State :=
  { block := block, host := { HostSide.fresh with script := [{ stmt := x }], st := st, hv := hv } }

/-- A state whose host is at HOST_READ of a source with the given bytes. -/
def atHostRead (data : List Byte) (ended : Bool := false) : State :=
  { block := Block.reset, host := { HostSide.fresh with
      script := [{ stmt := .hostRead 0 }], sources := [{ data := data, consumed := 0, ended := ended }] } }

/-- ST, HV, and the bytes consumed from source 0 after one step. -/
def hostAfter (s : State) : Option (Option (BitVec 3) × Option U64 × Option Nat) :=
  match step s with
  | .next t => some (t.host.st, t.host.hv, (t.host.sources[0]?).map ByteSource.consumed)
  | _ => none

/-- The fault a step stops with. -/
def faultOf (o : Result) : Option Fault :=
  match o with
  | .fault f => some f
  | _ => none

/-- The refusal a load or a step answers. -/
def refusalOf (o : Result) : Option Refusal :=
  match o with
  | .refused r => some r
  | _ => none

/-- The next state, where there is one. -/
def nextOf (o : Result) : Option State :=
  match o with
  | .next t => some t
  | _ => none

/-- The value a host read delivers, where it delivers one. -/
def valueRead (r : Except Fault Nat) : Option Nat :=
  match r with
  | .ok n => some n
  | .error _ => none

/-- The value a decoder delivers, where it delivers one. -/
def decoded (r : Except DecodeError Instr) : Option Instr :=
  match r with
  | .ok i => some i
  | .error _ => none

/-- Ports with START and an op, the operands 0. -/
def startPorts (op : BitVec 3) : Ports := { idlePorts with start := true, op := op }

/-- A busy block: a VENC in flight with one cycle left. -/
def busyBlock : Block :=
  { Block.reset with busy := true, inflight := some { record := encode (.venc 5), remaining := 1 } }

/-! ## decoding: the packed records of spec/95_test_vectors.md, one per command -/

theorem test_decode_venclen : decoded (decodePacked (bytesLE 18 0x000000000000000000000000000000000000)) =
    some (.venclen 0) := by decide
theorem test_decode_venc : decoded (decodePacked (bytesLE 18 0x000000000000000000000000000000000961)) =
    some (.venc 300) := by decide
theorem test_decode_vdeclen : decoded (decodePacked (bytesLE 18 0x000000000000000000080000000000000002)) =
    some (.vdeclen 0x01) := by decide
theorem test_decode_vdec : decoded (decodePacked (bytesLE 18 0x100000000000000025900000000000000003)) =
    some (.vdec 0x04B2 2) := by decide
theorem test_decode_vcheck : decoded (decodePacked (bytesLE 18 0x000000000000000000100000000000000404)) =
    some (.vcheck 0x02 128) := by decide
theorem test_decode_zzenc : decoded (decodePacked (bytesLE 18 0x00000000000000000007FFFFFFFFFFFFFDFD)) =
    some (.zzenc 0xFFFFFFFFFFFFFFBF) := by decide
theorem test_decode_zzdec : decoded (decodePacked (bytesLE 18 0x00000000000000000000000000000000040E)) =
    some (.zzdec 129) := by decide
theorem test_decode_reserved : decoded (decodePacked (bytesLE 18 0x000000000000000000000000000000000007)) =
    some .reserved := by decide

/-- R40 bit by bit: op 3 (VDEC) in bits 2..0, value bits 66..3 zero, lane 0 = 0xB2 in bits 74..67, lane 8 = 0x81 in bits
138..131, avail 9 in bits 142..139. -/
theorem test_decode_vdec_bits :
    decodeRecord (0b1001#4 ++ 0x81#8 ++ 0#56 ++ 0xB2#8 ++ 0#64 ++ 0b011#3) = .vdec 0x8100000000000000B2 9 := by decide

theorem test_decode_short : decoded (decodePacked [0x01]) = none := by decide
theorem test_decode_bit143 : decoded (decodePacked (bytesLE 18 (2 ^ 143))) = none := by decide
theorem test_table_word_vcheck : decodeTableWord 8 4 = some (.vcheck 0 0) := by decide

/-! ## the commands: rows of spec/95_test_vectors.md part L2 -/

theorem test_venclen_tier_end : blockAfter (.venclen 0xFFFFFFFFFFFFFF) =
    some (Block.completed none none (some 8) 0) := by decide
theorem test_venclen_zero : blockAfter (.venclen 0) = some (Block.completed none none (some 1) 0) := by decide
theorem test_venc_source_literal : blockAfter (.venc 0x0F0F) =
    some (Block.completed none (some 0x3C3E) (some 2) 0) := by decide
theorem test_venc_maximal : blockAfter (.venc 0x0123456789ABCDEF) =
    some (Block.completed none (some 0x0123456789ABCDEF00) (some 9) 0) := by decide
theorem test_vdeclen_zero : blockAfter (.vdeclen 0x00) = some (Block.completed none none (some 9) 0) := by decide
theorem test_vdeclen_c0 : blockAfter (.vdeclen 0xC0) = some (Block.completed none none (some 7) 0) := by decide
theorem test_vdec_trailing_lane_ignored : blockAfter (.vdec 0xFFFF01 15) =
    some (Block.completed (some 0) none none 0) := by decide
theorem test_vdec_truncation_wins : blockAfter (.vdec 0x0002 1) =
    some (Block.completed none none none 1) := by decide
theorem test_vcheck_below_threshold : blockAfter (.vcheck 0x80 0x1FFFFFFFFFFFF) =
    some (Block.completed none none none 2) := by decide
theorem test_vcheck_at_threshold : blockAfter (.vcheck 0x80 0x2000000000000) =
    some (Block.completed none none none 0) := by decide
theorem test_zzenc_minus_65 : blockAfter (.zzenc 0xFFFFFFFFFFFFFFBF) =
    some (Block.completed (some 0x81) none none 0) := by decide
theorem test_zzenc_min : blockAfter (.zzenc 0x8000000000000000) =
    some (Block.completed (some 0xFFFFFFFFFFFFFFFF) none none 0) := by decide
theorem test_zzdec_129 : blockAfter (.zzdec 0x81) =
    some (Block.completed (some 0xFFFFFFFFFFFFFFBF) none none 0) := by decide
theorem test_zzdec_all_ones : blockAfter (.zzdec 0xFFFFFFFFFFFFFFFF) =
    some (Block.completed (some 0x8000000000000000) none none 0) := by decide
theorem test_reserved_illegal_op : blockAfter .reserved = some (Block.completed none none none 4) := by decide

/-! ## the host: HOST_READ rows, protocol rows and P6 of spec/95_test_vectors.md -/

theorem test_hostRead_empty : hostAfter (atHostRead []) = some (some 3, none, some 0) := by decide
theorem test_hostRead_cut : hostAfter (atHostRead [0x00, 0xFF, 0xFF, 0xFF, 0xFF, 0xFF, 0xFF, 0xFF]) =
    some (some 1, none, some 8) := by decide
theorem test_hostRead_whole : hostAfter (atHostRead [0x02, 0x02, 0x01]) = some (some 0, some 0x80, some 2) := by decide
theorem test_hostRead_noncanonical : hostAfter (atHostRead [0x02, 0x00]) = some (some 2, none, some 2) := by decide
theorem test_read_after_reset : faultOf (step (atLine (.read .resStatus))) = some .readUnwritten := by decide
theorem test_read_value_after_venc : faultOf (step (atLine (.zzdec .val)
    (Block.completed none (some 0x0B) (some 1) 0) (some 0) none)) = some .readUnwritten := by decide
theorem test_start_while_busy : faultOf (exec (.venc 5) { State.reset with block := busyBlock }) =
    some .protocolViolation := by decide
theorem test_undecodable_record_refused : refusalOf (step (atLine (.packed [0x01]))) =
    some (.undecodableRecord .shortRecord) := by decide

/-! ## well-formedness: one ill-formed term for each check, refused -/

theorem test_wf_negative_unsigned_literal : (Stmt.venc (.lit (-1))).wf = false := by decide
theorem test_wf_large_unsigned_literal : (Stmt.zzdec (.lit (2 ^ 64))).wf = false := by decide
theorem test_wf_small_signed_literal : (Stmt.zzenc (.lit (-2 ^ 63 - 1))).wf = false := by decide
theorem test_wf_large_signed_literal : (Stmt.senc (.lit (2 ^ 63))).wf = false := by decide
theorem test_wf_ten_bytes : (Stmt.vdec (.list (List.replicate 10 0)) .omitted).wf = false := by decide
theorem test_wf_duplicate_label : ({ script := [⟨some 1, .halt⟩, ⟨some 1, .halt⟩] } : Program).labelsDistinct = false := by
  decide
theorem test_wf_unknown_label : ({ script := [⟨none, .br (.label 7)⟩] } : Program).labelsDefined = false := by decide
theorem test_wf_unknown_source : ({ script := [⟨none, .hostRead 0⟩] } : Program).resourcesThere = false := by decide
theorem test_wf_unknown_buffer : ({ script := [⟨none, .append 0 .val⟩] } : Program).resourcesThere = false := by decide
theorem test_wf_reserved_refused : refusalOf (loadProgram { script := [⟨none, .packed (bytesLE 18 7)⟩] } State.reset) =
    some .reservedOpInScript := by decide
theorem test_wf_reserved_edge : (Stmt.edge (startPorts 7)).issuesReserved = true := by decide

/-! ## witnesses of the statements' hypotheses -/

/-- For the statements whose one hypothesis is BUSY = 0, their operands being any: VenclenWritesTheLeastLength,
VenclenDependsOnLeadingZerosAlone, VencWritesTheLanesOfItsForm, VencBitsAreTheWireFormat, EncodedAndDecodedLengthsAgree,
VdeclenWritesLowestSetBitPlusOne, VdecIsTotal, VcheckComparesWithItsTagsThreshold, ZzencWritesItsFormula,
ZzdecWritesItsFormula, ZigzagCommandsAreInverse, EachCommandWritesTheFieldsOfItsRow, ValidSequencesAreTheEncodedValues and
ResultsDependOnOperandsAlone (both its states). -/
theorem witness_idle : State.reset.block.busy = false := by decide

theorem witness_ResetEdge : ({ idlePorts with rst := true, start := true } : Ports).rst = true := by decide

theorem witness_StartWhileBusy :
    (startPorts 1).rst = false ∧ (startPorts 1).start = true ∧ busyBlock.busy = true := by decide

/-- Both clauses: no later edge with LATENCY 1 (in flight), one with LATENCY 1 and none with LATENCY 0 (completed). -/
theorem witness_Clocked : State.reset.block.busy = false ∧ (startPorts 1).rst = false ∧ (startPorts 1).start = true ∧
    (∀ q ∈ [idlePorts], q.rst = false ∧ q.start = false) ∧
    ([] : List Ports).length < (fun _ : BitVec 3 => 1) (startPorts 1).op ∧
    (fun _ : BitVec 3 => 1) (startPorts 1).op ≤ [idlePorts].length ∧
    (fun _ : BitVec 3 => 0) (startPorts 1).op ≤ ([] : List Ports).length := by decide

/-- The clauses of the read statement: not valid, valid with a field UNWRITTEN, valid with each field written, and the
largest code that is read and the least that is not. -/
theorem witness_Reading : Block.reset.resValid = false ∧
    (Block.completed none none none 4).resValid = true ∧ (Block.completed none none none 4).resValue = none ∧
    (Block.completed none none none 4).resBytes = none ∧ (Block.completed none none none 4).resLen = none ∧
    ({ Block.reset with resValid := true } : Block).resStatus = none ∧
    (Block.completed (some 1) none none 0).resValue = some 1 ∧
    (Block.completed none (some 0x0B) (some 1) 0).resBytes = some 0x0B ∧
    (Block.completed none (some 0x0B) (some 1) 0).resLen = some 1 ∧
    (Block.completed none none none 4).resStatus = some 4 ∧ (4 : BitVec 3).toNat < 5 ∧
    (Block.completed none none none 5).resStatus = some 5 ∧ 5 ≤ (5 : BitVec 3).toNat := by decide

/-- Each op value has a record. -/
theorem witness_OpField : (encode (.venclen 1)).toNat % 8 = 0 ∧ (encode (.venc 1)).toNat % 8 = 1 ∧
    (encode (.vdeclen 1)).toNat % 8 = 2 ∧ (encode (.vdec 1 15)).toNat % 8 = 3 ∧ (encode (.vcheck 1 1)).toNat % 8 = 4 ∧
    (encode (.zzenc 1)).toNat % 8 = 5 ∧ (encode (.zzdec 1)).toNat % 8 = 6 ∧ (encode .reserved).toNat % 8 = 7 := by decide

/-- 17, 19 and 18 bytes; the last number below 2^143, and the first at it. -/
theorem witness_RecordBytes : (bytesLE 17 0).length < 18 ∧ 18 < (bytesLE 19 0).length ∧
    (bytesLE 18 (2 ^ 143)).length = 18 ∧ 2 ^ 143 ≤ leList (bytesLE 18 (2 ^ 143)) ∧
    leList (bytesLE 18 (2 ^ 143 - 1)) = (BitVec.allOnes 143).toNat ∧ (bytesLE 18 (2 ^ 143 - 1)).length = 18 := by decide

theorem witness_StepRuns : currentStmt (atLine (.packed (encodePacked (.venc 300)))) =
      some (.packed (encodePacked (.venc 300))) ∧
    decoded (decodePacked (encodePacked (.venc 300))) = some (.venc 300) := by decide

theorem witness_Placed : decodeTableWord 8 7 = some .reserved ∧ State.reset.block.busy = false := by decide

/-- VDEC's clauses at their boundaries: truncated by one lane, exactly whole and non-canonical, exactly whole and canonical,
and the maximal form. -/
theorem witness_Vdec : min (1 : BitVec 4).toNat 9 < tz8 (lane (0x0002 : Lanes) 0) + 1 ∧
    tz8 (lane (0xFE01FE : Lanes) 0) + 1 ≤ min (2 : BitVec 4).toNat 9 ∧
    (tz8 (lane (0x01FE : Lanes) 0) ≠ 0 ∧ (0x01FE : Lanes).toNat % 2 ^ 16 / 2 ^ 2 < 2 ^ (7 * 1)) ∧
    ¬ ((0x0202 : Lanes).toNat % 2 ^ 16 / 2 ^ 2 < 2 ^ (7 * 1)) ∧
    tz8 (lane (0x010000000000000000 : Lanes) 0) = 8 ∧
    tz8 (lane (0x010000000000000000 : Lanes) 0) + 1 ≤ min (15 : BitVec 4).toNat 9 := by decide

theorem witness_VdecLanesAfter : (∀ i < tz8 (lane (0x02 : Lanes) 0) + 1, lane (0xFF0002 : Lanes) i = lane (0x02 : Lanes) i) ∧
    tz8 (lane (0x02 : Lanes) 0) + 1 ≤ min (2 : BitVec 4).toNat 9 ∧
    tz8 (lane (0x02 : Lanes) 0) + 1 ≤ min (15 : BitVec 4).toNat 9 := by decide

theorem witness_VdecBeyondAvail : (∀ i < min (1 : BitVec 4).toNat 9, lane (0xFF03 : Lanes) i = lane (0x03 : Lanes) i) ∧
    9 ≤ (15 : BitVec 4).toNat := by decide

/-- The round trip: lanes after the encoding of 5 differ; avail at its length and one below. -/
theorem witness_RoundTrip : (∀ i < (1 : BitVec 4).toNat, lane (0xFF0B : Lanes) i = lane (0x0B : Lanes) i) ∧
    (1 : BitVec 4).toNat ≤ (1 : BitVec 4).toNat ∧ (0 : BitVec 4).toNat < (1 : BitVec 4).toNat := by decide

theorem witness_Accepted : blockAfter (.vdec 0xFF0B 2) = some (Block.completed (some 5) none none 0) := by decide

/-- A sequence of each class, and one longer than nine bytes. -/
theorem witness_WireClass : wireClass [0x02] = .truncated ∧ wireClass [0x02, 0x00] = .nonCanonical ∧
    wireClass [0x02, 0x02, 0x07] = .valid 128 [0x07] ∧ min (1 : BitVec 4).toNat 9 = min [(0x02 : Byte)].length 9 ∧
    min (15 : BitVec 4).toNat 9 = min (List.replicate 20 (0x01 : Byte)).length 9 := by decide

theorem witness_VdecVcheck : tz8 (lane (0x02 : Lanes) 0) + 1 ≤ min (2 : BitVec 4).toNat 9 := by decide

/-- The form holds the value: the maximal form any value, a tagged form one at its bound. -/
theorem witness_VcheckMinimal : (tz8 (0x00 : Byte) = 8) ∧ (0x3FFF : U64).toNat < 2 ^ (7 * (tz8 (0x02 : Byte) + 1)) := by decide

theorem witness_ZigzagSigns : 0 ≤ (0x7FFFFFFFFFFFFFFF : U64).toInt ∧ (0x8000000000000000 : U64).toInt < 0 ∧
    (0xFFFFFFFFFFFFFFFE : U64).toNat % 2 = 0 ∧ (0xFFFFFFFFFFFFFFFF : U64).toNat % 2 = 1 := by decide

theorem witness_Reserved : recordOp (7 : Record) = 7#3 ∧
    (⟨none, .packed (bytesLE 18 7)⟩ : Line) ∈ ({ script := [⟨none, .packed (bytesLE 18 7)⟩] } : Program).script ∧
    (Stmt.packed (bytesLE 18 7)).issuesReserved = true := by decide

theorem witness_Error : blockAfter (.vdec 0 0) = some (Block.completed none none none 1) ∧
    (Block.completed none none none 1).resStatus ≠ some 0#3 := by decide

/-- The command lines, literals at the ends of their ranges. -/
theorem witness_ScriptLine :
    currentStmt (atLine (.venclen (.lit 0))) = some (.venclen (.lit 0)) ∧
    currentStmt (atLine (.venc (.lit (2 ^ 64 - 1)))) = some (.venc (.lit (2 ^ 64 - 1))) ∧
    currentStmt (atLine (.vdeclen 0)) = some (.vdeclen 0) ∧
    currentStmt (atLine (.vdec (.list [0, 0, 0, 0, 0, 0, 0, 0, 1]) .omitted)) =
      some (.vdec (.list [0, 0, 0, 0, 0, 0, 0, 0, 1]) .omitted) ∧
    currentStmt (atLine (.vdec (.list []) (.lit 15))) = some (.vdec (.list []) (.lit 15)) ∧
    currentStmt (atLine (.vcheck 2 (.lit 128))) = some (.vcheck 2 (.lit 128)) ∧
    currentStmt (atLine (.zzenc (.lit (-2 ^ 63)))) = some (.zzenc (.lit (-2 ^ 63))) ∧
    currentStmt (atLine (.zzdec (.lit 129))) = some (.zzdec (.lit 129)) ∧
    (atLine (.vdeclen 0)).block.busy = false := by decide

/-- The shorthands, with HV and the results written, and with each UNWRITTEN. -/
theorem witness_Shorthands :
    (atLine (.venc .val) Block.reset none (some 7)).host.hv = some 7 ∧
    currentStmt (atLine (.vcheck 2 .val) Block.reset none (some 7)) = some (.vcheck 2 .val) ∧
    (atLine (.zzdec .val)).host.hv = none ∧ currentStmt (atLine (.zzdec .val)) = some (.zzdec .val) ∧
    (Block.completed none (some 0x0B) (some 1) 0).resValid = true ∧
    (Block.completed none (some 0x0B) (some 1) 0).resBytes = some 0x0B ∧
    currentStmt (atLine (.vdec .enc (.lit 15)) (Block.completed none (some 0x0B) (some 1) 0)) =
      some (.vdec .enc (.lit 15)) ∧
    currentStmt (atLine (.vdec (.list [1]) .len) (Block.completed none none (some 1) 0)) = some (.vdec (.list [1]) .len) ∧
    (atLine (.vdec .enc .omitted)).block.resValid = false ∧
    currentStmt (atLine (.sdec .enc)) = some (.sdec .enc) ∧ (atLine (.sdec .enc)).block.resValid = false ∧
    (Block.completed none none (some 1) 0).resBytes = none ∧ (Block.completed (some 1) none none 0).resLen = none := by
  decide

/-- A branch to a label and by `+k`, a label no line defines, and an ST that is the code, is another, is UNWRITTEN, and is the
least that is never produced. -/
theorem witness_Branches :
    (([⟨some 4, .br (.label 4)⟩] : List Line)[0]?).bind Line.label = some 4 ∧
    (∀ m < 2, ((atLine (.br (.label 4))).host.script[m]?).bind Line.label ≠ some 4) ∧
    currentStmt (atLine (.br (.plus 2))) = some (.br (.plus 2)) ∧
    currentStmt (atLine (.bst .illegalOp (.plus 2)) Block.reset (some 4)) = some (.bst .illegalOp (.plus 2)) ∧
    (atLine (.bst .illegalOp (.plus 2)) Block.reset (some 4)).host.st = some (statusCode .illegalOp) ∧
    currentStmt (atLine (.bnst .ok (.plus 2)) Block.reset (some 4)) = some (.bnst .ok (.plus 2)) ∧
    (4 : BitVec 3).toNat ≤ 4 ∧ (4 : BitVec 3) ≠ statusCode .ok ∧
    (atLine (.bst .ok (.plus 2))).host.st = none ∧
    (atLine (.bst .ok (.plus 2)) Block.reset (some 5)).host.st = some 5 ∧ 5 ≤ (5 : BitVec 3).toNat := by decide

theorem witness_HostReadOfRegister : currentStmt (atLine (.read .resLen)) = some (.read .resLen) ∧
    (atLine (.read .resLen)).block.resValid = false ∧
    valueRead (readReg (Block.completed none none (some 9) 0) .resLen) = some 9 ∧
    valueRead (readReg (Block.completed none none (some 9) 0) .resValue) = none := by decide

theorem witness_HostControl : (atLine .halt).block.busy = false ∧ currentStmt (atLine .halt) = some .halt ∧
    nextOf (step (atLine .halt)) = some (atLine .halt) ∧
    (nextOf (step (atLine (.bst .ok (.plus 2)) Block.reset (some 0)))).isSome = true ∧
    (nextOf (step (atLine (.bnst .ok (.plus 2)) Block.reset (some 0)))).isSome = true ∧
    (nextOf (step (atLine (.br (.plus 2))))).isSome = true ∧
    (nextOf (step (atLine (.read .busy)))).isSome = true := by decide

theorem witness_Ended : State.reset.ended = true ∧ (atLine .halt).ended = true ∧ (atLine .halt).block.busy = false := by
  decide

/-- A command in flight with two cycles left, the script ended: one step, and two. -/
theorem witness_InFlight :
    (⟨{ busyBlock with inflight := some { record := 0x29, remaining := 2 } }, HostSide.fresh⟩ : State).ended = true ∧
    ({ busyBlock with inflight := some { record := 0x29, remaining := 2 } } : Block).busy = true ∧
    1 < ({ record := 0x29, remaining := 2 } : InFlight).remaining ∧
    ({ record := 0x29, remaining := 2 } : InFlight).remaining ≤ 2 := by decide

/-- An edge line whose edge goes on (RST), and one whose edge faults (a START with BUSY = 1). -/
theorem witness_Edge :
    currentStmt (atLine (.edge { idlePorts with rst := true })) = some (.edge { idlePorts with rst := true }) ∧
    nextOf (clockEdge Config.latency { idlePorts with rst := true } (atLine (.edge { idlePorts with rst := true }))) =
      some (atLine (.edge { idlePorts with rst := true })) ∧
    currentStmt (atLine (.edge (startPorts 1)) busyBlock) = some (.edge (startPorts 1)) ∧
    faultOf (clockEdge Config.latency (startPorts 1) (atLine (.edge (startPorts 1)) busyBlock)) =
      some .protocolViolation := by decide

/-- HOST_READ on the last line: an empty source, one byte short, and exactly whole. -/
theorem witness_EndState : (atHostRead []).block.busy = false ∧ currentStmt (atHostRead []) = some (.hostRead 0) ∧
    ((atHostRead []).host.script[(atHostRead []).host.hpc + 1]?).map Line.stmt = none ∧
    (atHostRead []).host.sources[0]? = some { data := [], consumed := 0, ended := false } ∧
    (atHostRead [0x02]).host.sources[0]? = some { data := [0x02], consumed := 0, ended := false } ∧
    ([] : List Byte).length < tz8 (0x02 : Byte) ∧ tz8 (0x02 : Byte) ≤ [(0x02 : Byte)].length := by decide

theorem witness_Load :
    ({ script := [⟨none, .hostRead 0⟩], sources := [[0x01]], buffers := 1 } : Program).wf = true ∧
    ({ script := [⟨none, .hostRead 0⟩] } : Program).wf = false := by decide

theorem witness_HostReadEmpty : currentStmt (atHostRead []) = some (.hostRead 0) ∧
    (atHostRead []).host.sources[0]? = some { data := [], consumed := 0, ended := false } := by decide

/-- One byte short, and exactly whole. -/
theorem witness_HostReadCutAndWhole : (atHostRead [0x02]).host.sources[0]? = some { data := [0x02], consumed := 0, ended := false } ∧
    ([] : List Byte).length < tz8 (0x02 : Byte) ∧ tz8 (0x02 : Byte) ≤ [(0x02 : Byte)].length ∧
    (atHostRead [0x02]).block.busy = false := by decide

theorem witness_HostReadValue : blockAfter (.venc 128) = some (Block.completed none (some 0x0202) (some 2) 0) ∧
    (atHostRead [0x02, 0x02, 0x01]).host.sources[0]? =
      some { data := (List.range (2 : BitVec 4).toNat).map (lane 0x0202) ++ [0x01], consumed := 0, ended := false } := by decide

theorem witness_ReadAfterEof : (atHostRead [] true).host.sources[0]? = some { data := [], consumed := 0, ended := true } ∧
    currentStmt (atHostRead [] true) = some (.hostRead 0) := by decide

/-- A state at APPEND with one empty buffer. -/
def atAppend : State :=
  { block := Block.reset, host := { HostSide.fresh with script := [{ stmt := .append 0 (.lit 300) }], buffers := [[]] } }

/-- A state at APPEND of `@val` with one empty buffer. -/
def atAppendVal (hv : Option U64) : State :=
  { block := Block.reset, host := { HostSide.fresh with script := [{ stmt := .append 0 .val }], buffers := [[]], hv := hv } }

theorem witness_Append : currentStmt atAppend = some (.append 0 (.lit 300)) ∧ atAppend.host.buffers[0]? = some [] ∧
    atAppend.block.busy = false ∧ (ValueArg.lit 300).wfUnsigned = true ∧ ValueArg.val.wfUnsigned = true ∧
    currentStmt (atAppendVal (some 7)) = some (.append 0 .val) ∧ (atAppendVal (some 7)).host.buffers[0]? = some [] ∧
    (atAppendVal (some 7)).host.hv = some 7 ∧ (atAppendVal (some 7)).block.busy = false ∧
    currentStmt (atAppendVal none) = some (.append 0 .val) ∧ (atAppendVal none).host.buffers[0]? = some [] ∧
    (atAppendVal none).host.hv = none ∧ (atAppendVal none).block.busy = false := by decide

theorem witness_SencSdecExpansions : (ValueArg.lit (-2 ^ 63)).wfSigned = true ∧
    currentStmt (atLine (.senc (.lit (-2 ^ 63)))) = some (.senc (.lit (-2 ^ 63))) ∧
    currentStmt (atLine (.sdec (.list [0x02]))) = some (.sdec (.list [0x02])) ∧ (BytesArg.list [0x02]).wf = true ∧
    (blockAfter (.vdec (lanesOf [0x02]) 1)).map Block.resStatus = some (some 1) ∧
    (blockAfter (.vdec (lanesOf [0x03]) 1)).map Block.resStatus = some (some 0) := by decide

/-- A state at SENC with SDEC on the next line. -/
def atSenc : State :=
  { block := Block.reset,
    host := { HostSide.fresh with script := [{ stmt := .senc (.lit (-2 ^ 63)) }, { stmt := .sdec .enc }] } }

theorem witness_SencSdec : currentStmt atSenc = some (.senc (.lit (-2 ^ 63))) ∧
    (atSenc.host.script[atSenc.host.hpc + 1]?).map Line.stmt = some (.sdec .enc) ∧ atSenc.block.busy = false := by decide

/-- A state with the invariant that a step answers with a next state. -/
theorem witness_Invariant : (atLine (.venc (.lit 5))).inv = true ∧
    (nextOf (step (atLine (.venc (.lit 5))))).map (fun t => t.block.resLen) = some (some 1) := by decide

/-- Two instances that both step. -/
theorem witness_Instances :
    ([atLine (.venc (.lit 5)), atHostRead []] : List State)[0]? = some (atLine (.venc (.lit 5))) ∧
    ([atLine (.venc (.lit 5)), atHostRead []] : List State)[1]? = some (atHostRead []) ∧
    (nextOf (step (atLine (.venc (.lit 5))))).isSome = true ∧ (nextOf (step (atHostRead []))).isSome = true := by
  decide

end Sys2Proof.Tests
end

/-! # The invariant of Safety.lean, and what a step can do -/

namespace Sys2Proof.Machine

/-! ## The invariant's parts as propositions -/

theorem State.inv_iff {s : State} : s.inv = true ↔ s.block.inv = true ∧ s.host.stLegal = true := by
  simp [State.inv]

theorem Block.inv_iff {b : Block} : b.inv = true ↔
    b.fieldsLegal = true ∧ b.bytesLegal = true ∧ b.resultsExclusive = true ∧ b.protocolLegal = true := by
  simp [Block.inv, and_assoc]

theorem Block.fieldsLegal_iff {b : Block} : b.fieldsLegal = true ↔
    (∀ L, b.resLen = some L → 1 ≤ L.toNat ∧ L.toNat ≤ 9) ∧
    (∀ c, b.resStatus = some c → c.toNat ≤ 2 ∨ c.toNat = 4) := by
  simp only [Block.fieldsLegal, Bool.and_eq_true, Option.all_eq_true, decide_eq_true_eq]

/-- RES_BYTES stands beside a RES_LEN that its first lane's tag gives, and is zero behind it (R16, R61). -/
theorem Block.bytesLegal_iff {b : Block} : b.bytesLegal = true ↔
    ∀ B, b.resBytes = some B → ∃ L, b.resLen = some L ∧ tz8 (lane B 0) + 1 = L.toNat ∧
      ∀ i < 9, L.toNat ≤ i → lane B i = 0#8 := by
  simp only [Block.bytesLegal, Option.all_eq_true, Option.any_eq_true, Bool.and_eq_true, decide_eq_true_eq,
    List.all_eq_true, List.mem_range, Bool.or_eq_true, beq_iff_eq, or_iff_not_imp_left, Nat.not_lt]

theorem Block.protocolLegal_iff {b : Block} : b.protocolLegal = true ↔
    b.busy = b.inflight.isSome ∧ (∀ f, b.inflight = some f → 0 < f.remaining) ∧
    (b.busy = true → b.resValid = false) ∧ (b.busy = false → b.resValid = false → b = Block.reset) ∧
    (b.resValid = true → b.resStatus.isSome = true) := by
  simp only [Block.protocolLegal, Bool.and_eq_true, beq_iff_eq, Option.all_eq_true, decide_eq_true_eq,
    Bool.or_eq_true, Bool.not_eq_true', or_iff_not_imp_left, Bool.not_eq_false, Classical.not_imp, and_imp,
    Bool.not_eq_true, and_assoc]

/-! ## What a command can write -/

/-- R64's three outcomes. -/
theorem vdecResults_cases (B : Lanes) (a : BitVec 4) :
    vdecResults B a = raise .unexpectedEndOfInput ∨ vdecResults B a = raise .nonCanonicalEncoding ∨
      ∃ v, vdecResults B a = { status := .ok, value := some v } := by
  by_cases h : availEff a < tz8 (lane B 0) + 1
  · exact .inl (vdecResults_truncated h)
  · rw [vdecResults_whole (by omega)]
    split
    · exact .inr (.inl rfl)
    · exact .inr (.inr ⟨_, rfl⟩)

/-- R75's two outcomes. -/
theorem vcheckResults_cases (b0 : Byte) (v : U64) :
    vcheckResults b0 v = raise .nonCanonicalEncoding ∨ vcheckResults b0 v = { status := .ok } := by
  unfold vcheckResults
  split
  · exact .inl rfl
  · exact .inr rfl

/-- The status codes a command can produce (R85, R88). -/
theorem statusCode_legal {c : Status} (h : c ≠ .endOfInput) :
    (statusCode c).toNat ≤ 2 ∨ (statusCode c).toNat = 4 := by
  cases c
  case endOfInput => exact absurd rfl h
  all_goals decide

/-- A completed block meets the invariant where its results do; the protocol registers are legal by themselves. -/
theorem inv_toBlock {r : Results} (hstatus : r.status ≠ .endOfInput)
    (hlen : ∀ L, r.len = some L → 1 ≤ L.toNat ∧ L.toNat ≤ 9)
    (hbytes : r.toBlock.bytesLegal = true) (hexcl : r.toBlock.resultsExclusive = true) :
    r.toBlock.inv = true := by
  refine Block.inv_iff.2 ⟨Block.fieldsLegal_iff.2 ⟨hlen, ?_⟩, hbytes, hexcl, Block.protocolLegal_iff.2 (by simp)⟩
  rintro c ⟨⟩
  exact statusCode_legal hstatus

theorem inv_statusOnly {c : Status} (h : c ≠ .endOfInput) : (raise c).toBlock.inv = true :=
  inv_toBlock h (by simp) rfl rfl

theorem inv_value (v : U64) : ({ status := .ok, value := some v } : Results).toBlock.inv = true :=
  inv_toBlock (by simp) (by simp) rfl rfl

theorem legal_len {n : Nat} (h : n ≤ 8) {L : BitVec 4} (hL : some (BitVec.ofNat 4 (n + 1)) = some L) :
    L.toNat = n + 1 ∧ 1 ≤ L.toNat ∧ L.toNat ≤ 9 := by
  cases hL
  rw [ofNat4_toNat h]
  omega

theorem inv_len {n : Nat} (h : n ≤ 8) :
    ({ status := .ok, len := some (BitVec.ofNat 4 (n + 1)) } : Results).toBlock.inv = true :=
  inv_toBlock (by simp) (fun _ hL => (legal_len h hL).2) rfl rfl

theorem lane_eq_zero_of_lt {B : Lanes} {k i : Nat} (h : B.toNat < 2 ^ (8 * k)) (hi : k ≤ i) : lane B i = 0#8 := by
  have hlt : B.toNat < 2 ^ (8 * i) := h.trans_le (Nat.pow_le_pow_right (by omega) (by omega))
  apply BitVec.eq_of_toNat_eq
  rw [lane_toNat, Nat.div_eq_of_lt hlt]
  rfl

/-- A tagged encoding fits its `n + 1` lanes. -/
theorem encodeLanes_lt {v : U64} {n : Nat} (h : n < 8) (hv : v.toNat < 2 ^ (7 * (n + 1))) :
    (encodeLanes v n).toNat < 2 ^ (8 * (n + 1)) := by
  have hodd : 2 * v.toNat + 1 < 2 ^ (7 * (n + 1) + 1) := by rw [Nat.pow_succ]; omega
  rw [encodeLanes_tagged v n h hv, show 8 * (n + 1) = 7 * (n + 1) + 1 + n by ring, Nat.pow_add _ _ n]
  exact Nat.mul_lt_mul_of_pos_right hodd (Nat.two_pow_pos n)

/-- R16: the lanes behind an encoding are zero. -/
theorem lane_encodeLanes_beyond (v : U64) {i : Nat} (h : ntag v + 1 ≤ i) (h9 : i < 9) :
    lane (encodeLanes v (ntag v)) i = 0#8 := by
  have ht : ntag v < 8 := by omega
  exact lane_eq_zero_of_lt (encodeLanes_lt ht (ntag_fits v ht)) h

theorem inv_venc (v : U64) : (vencResults v).toBlock.inv = true := by
  have hn := ofNat4_toNat (ntag_le v)
  refine inv_toBlock (by simp [vencResults]) (fun _ hL => (legal_len (ntag_le v) hL).2)
    (Block.bytesLegal_iff.2 ?_) (by simp [Block.resultsExclusive, vencResults])
  intro B hB
  obtain rfl : encodeLanes v (ntag v) = B := Option.some.inj hB
  refine ⟨_, rfl, ?_, fun i h9 hi => lane_encodeLanes_beyond v (hn ▸ hi) h9⟩
  rw [hn, tz8_encodeLanes]

/-- Every command leaves the block with its invariant, whatever its operands. -/
theorem inv_resultsOf (i : Instr) : (resultsOf i).toBlock.inv = true := by
  cases i with
  | venclen v => exact inv_len (ntag_le v)
  | venc v => exact inv_venc v
  | vdeclen b0 => exact inv_len (tz8_le b0)
  | vdec B a =>
    simp only [resultsOf]
    obtain h | h | ⟨v, h⟩ := vdecResults_cases B a <;> rw [h]
    · exact inv_statusOnly (by simp)
    · exact inv_statusOnly (by simp)
    · exact inv_value v
  | vcheck b0 v =>
    simp only [resultsOf]
    obtain h | h := vcheckResults_cases b0 v <;> rw [h]
    · exact inv_statusOnly (by simp)
    · exact inv_statusOnly (c := .ok) (by simp)
  | zzenc v => exact inv_value _
  | zzdec v => exact inv_value _
  | reserved => exact inv_statusOnly (by simp)

/-! ## What keeps the invariant -/

/-- The invariant speaks of the block and of ST alone. -/
theorem State.inv_of_frame {s t : State} (h : s.inv = true) (hb : t.block = s.block)
    (hst : t.host.st = s.host.st) : t.inv = true := by
  rw [State.inv_iff] at h ⊢
  rw [hb, HostSide.stLegal, hst]
  exact h

/-- R27: with a command in flight, RES_VALID 0 and cycles left, the fields are as legal as they were. -/
theorem Block.inv_inFlight {b : Block} {f : InFlight} (h : b.inv = true) (hf : 0 < f.remaining) :
    Block.inv { b with resValid := false, busy := true, inflight := some f } = true := by
  obtain ⟨hfields, hbytes, hexcl, -⟩ := Block.inv_iff.1 h
  exact Block.inv_iff.2 ⟨hfields, hbytes, hexcl, Block.protocolLegal_iff.2 (by simp [hf])⟩

/-- A command's completion meets the block's invariant whatever stood there before. -/
theorem State.inv_completed {s : State} (h : s.host.stLegal = true) (i : Instr) :
    State.inv { s with block := (resultsOf i).toBlock } = true :=
  State.inv_iff.2 ⟨inv_resultsOf i, h⟩

/-- R55: the ST copied from a legal block is a produced code. -/
theorem inv_afterCommand {s : State} (h : s.block.inv = true) : (afterCommand s).inv = true := by
  obtain ⟨hfields, -, -, -⟩ := Block.inv_iff.1 h
  obtain ⟨-, hstatus⟩ := Block.fieldsLegal_iff.1 hfields
  refine State.inv_iff.2 ⟨h, ?_⟩
  rw [HostSide.stLegal, afterCommand_st, Option.all_eq_true]
  intro c hc
  have := hstatus c hc
  simp only [decide_eq_true_eq]
  omega

theorem inv_setHostResult {s : State} (h : s.block.inv = true) (c : Status) (v : Option U64) :
    (setHostResult c v s).inv = true :=
  State.inv_iff.2 ⟨h, by simp [HostSide.stLegal, statusCode_le_four]⟩

/-! ## Every statement keeps the invariant -/

/-- All that a host command can answer with a next state: its command's results, copied to ST and HV (R55). -/
theorem hostCommand_next {r : Record} {s t : State} (h : hostCommand r s = .next t) :
    s.block.busy = false ∧ t = afterCommand { s with block := (resultsOf (decodeRecord r)).toBlock } := by
  obtain ⟨u, hu, hk⟩ := andThen_eq_next h
  obtain ⟨hb, rfl⟩ := exec_next hu
  cases hk
  exact ⟨hb, rfl⟩

theorem hostCommand_inv {r : Record} {s t : State} (h : hostCommand r s = .next t) : t.inv = true := by
  obtain ⟨-, rfl⟩ := hostCommand_next h
  exact inv_afterCommand (inv_resultsOf _)

theorem valueCommand_inv {op : BitVec 3} {v : ValueArg} {s t : State} (h : valueCommand op v s = .next t) :
    t.inv = true := by
  obtain ⟨x, -, hx⟩ := withRead_eq_next h
  exact hostCommand_inv hx

theorem vdecCommand_inv {b : BytesArg} {a : AvailArg} {s t : State} (h : vdecCommand b a s = .next t) :
    t.inv = true := by
  obtain ⟨⟨B, own⟩, -, h⟩ := withRead_eq_next h
  obtain ⟨m, -, h⟩ := withRead_eq_next h
  exact hostCommand_inv h

theorem hostReadRest_inv {free : Nat → Option Byte} {src : Nat} {b0 : Byte} {s t : State}
    (h : hostReadRest free src b0 s = .next t) : t.inv = true := by
  obtain ⟨u, hu, h⟩ := andThen_eq_next h
  obtain ⟨hublock, -⟩ := State.inv_iff.1 (hostCommand_inv hu)
  obtain ⟨L, -, h⟩ := withRead_eq_next h
  split at h
  · cases h
  · cases h; exact inv_setHostResult hublock .unexpectedEndOfInput none
  · exact hostCommand_inv h

theorem hostReadStmt_inv {free : Nat → Option Byte} {src : Nat} {s t : State} (hs : s.inv = true)
    (h : hostReadStmt free src s = .next t) : t.inv = true := by
  unfold hostReadStmt at h
  split at h
  · cases h
  · cases h; exact inv_setHostResult (State.inv_iff.1 hs).1 .endOfInput none
  · exact hostReadRest_inv h

theorem appendStmt_inv {buf : Nat} {v : ValueArg} {s t : State} (h : appendStmt buf v s = .next t) :
    t.inv = true := by
  unfold appendStmt at h
  split at h
  · cases h
  · obtain ⟨u, hu, h⟩ := andThen_eq_next h
    obtain ⟨BL, -, h⟩ := withRead_eq_next h
    cases h
    exact State.inv_of_frame (valueCommand_inv hu) rfl rfl

theorem sencStmt_inv {v : ValueArg} {s t : State} (h : sencStmt v s = .next t) : t.inv = true := by
  obtain ⟨u, -, h⟩ := andThen_eq_next h
  exact valueCommand_inv h

theorem sdecStmt_inv {b : BytesArg} {s t : State} (h : sdecStmt b s = .next t) : t.inv = true := by
  obtain ⟨u, hu, h⟩ := andThen_eq_next h
  obtain ⟨c, -, h⟩ := withRead_eq_next h
  split at h
  · cases h; exact vdecCommand_inv hu
  · exact valueCommand_inv h

theorem packedStmt_inv {bs : List Byte} {s t : State} (h : packedStmt bs s = .next t) : t.inv = true := by
  unfold packedStmt at h
  split at h
  · obtain ⟨u, hu, h⟩ := andThen_eq_next h
    obtain ⟨-, rfl⟩ := exec_next hu
    cases h
    exact inv_afterCommand (inv_resultsOf _)
  · cases h

/-- A read line records the value and leaves all else. -/
theorem readStmt_next {r : ResultReg} {s t : State} (h : readStmt r s = .next t) :
    ∃ n, readReg s.block r = .ok n ∧ t = { s with host := { s.host with lastRead := some n } } := by
  obtain ⟨n, hn, h⟩ := withRead_eq_next h
  cases h
  exact ⟨n, hn, rfl⟩

theorem tick_inv {s t : State} (hs : s.inv = true) (h : tick s = .next t) : t.inv = true := by
  obtain ⟨hblock, hst⟩ := State.inv_iff.1 hs
  obtain rfl | ⟨f, n, hf, hn, rfl⟩ | ⟨f, -, -, rfl⟩ := tick_next h
  · exact hs
  · obtain ⟨-, -, -, hprotocol⟩ := Block.inv_iff.1 hblock
    obtain ⟨hbusy, -, hvalid, -⟩ := Block.protocolLegal_iff.1 hprotocol
    rw [hf, Option.isSome_some] at hbusy
    have hinv := Block.inv_inFlight (f := { f with remaining := n + 1 }) hblock (Nat.succ_pos n)
    exact State.inv_iff.2 ⟨by simpa only [hbusy, hvalid hbusy] using hinv, hst⟩
  · exact State.inv_completed hst _

theorem startEdge_inv {lat : BitVec 3 → Nat} {p : Ports} {s t : State} (hs : s.inv = true)
    (h : startEdge lat p s = .next t) : t.inv = true := by
  obtain ⟨hblock, hst⟩ := State.inv_iff.1 hs
  unfold startEdge at h
  split at h
  · cases h
  split at h
  · obtain ⟨-, rfl⟩ := exec_next h
    exact State.inv_completed hst _
  · cases h
    exact State.inv_iff.2 ⟨Block.inv_inFlight hblock (Nat.succ_pos _), hst⟩

theorem Block.inv_reset : Block.reset.inv = true := by decide

theorem clockEdge_inv {lat : BitVec 3 → Nat} {p : Ports} {s t : State} (hs : s.inv = true)
    (h : clockEdge lat p s = .next t) : t.inv = true := by
  unfold clockEdge at h
  split at h
  · cases h; exact State.inv_iff.2 ⟨Block.inv_reset, (State.inv_iff.1 hs).2⟩
  split at h
  · exact startEdge_inv hs h
  · exact tick_inv hs h

theorem stmtEffect_inv {lat : BitVec 3 → Nat} {free : Nat → Option Byte} {x : Stmt} {s t : State}
    (hs : s.inv = true) (h : stmtEffect lat free x s = .next t) : t.inv = true := by
  cases x with
  | venclen v | venc v | zzenc v | zzdec v => exact valueCommand_inv h
  | vdeclen b0 => exact hostCommand_inv h
  | vdec bytes avail => exact vdecCommand_inv h
  | vcheck b0 v =>
    obtain ⟨x, -, h⟩ := withRead_eq_next h
    exact hostCommand_inv h
  | hostRead src => exact hostReadStmt_inv hs h
  | append buf v => exact appendStmt_inv h
  | senc v => exact sencStmt_inv h
  | sdec bytes => exact sdecStmt_inv h
  | packed bs => exact packedStmt_inv h
  | edge p => exact clockEdge_inv hs h
  | read r =>
    obtain ⟨n, -, rfl⟩ := readStmt_next h
    exact State.inv_of_frame hs rfl rfl
  | bst c g | bnst c g | br g | halt => cases h; exact hs

/-! ## What a step can do -/

/-- A branch moves hpc and nothing else. -/
theorem branch_next {g : Target} {s t : State} (h : branch g s = .next t) : ∃ n, t = setHpc n s := by
  unfold branch at h
  split at h
  · cases h; exact ⟨_, rfl⟩
  split at h
  · cases h; exact ⟨_, rfl⟩
  · cases h

theorem branchOnStatus_next {sense : Bool} {code : Status} {g : Target} {s t : State}
    (h : branchOnStatus sense code g s = .next t) : ∃ n, t = setHpc n s := by
  obtain ⟨c, -, h⟩ := withRead_eq_next h
  split at h
  · exact branch_next h
  · cases h; exact ⟨_, rfl⟩

/-- All that a statement can answer with a next state: a clock edge with nothing asked, a move of hpc, or its effect
and then the next line. -/
theorem runStmt_next {lat : BitVec 3 → Nat} {free : Nat → Option Byte} {x : Stmt} {s t : State}
    (h : runStmt lat free x s = .next t) :
    tick s = .next t ∨ (∃ n, t = setHpc n s) ∨ ∃ u, stmtEffect lat free x s = .next u ∧ t = advance u := by
  unfold runStmt at h
  split at h
  · split at h
    · exact .inl h
    · exact .inr (.inl (branch_next h))
    · exact .inr (.inl (branchOnStatus_next h))
    · exact .inr (.inl (branchOnStatus_next h))
    · obtain ⟨u, hu, hk⟩ := andThen_eq_next h
      cases hk
      exact .inr (.inr ⟨u, hu, rfl⟩)
  · cases h

/-- The step's version of `runStmt_next`. -/
theorem step_next {s t : State} (h : step s = .next t) :
    tick s = .next t ∨ (∃ n, t = setHpc n s) ∨
      ∃ x u, currentStmt s = some x ∧ stmtEffect Config.latency Config.freeRead x s = .next u ∧ t = advance u := by
  unfold step stepWith at h
  split at h
  · exact .inl h
  · next x hx =>
    obtain h | h | ⟨u, hu, ht⟩ := runStmt_next h
    · exact .inl h
    · exact .inr (.inl h)
    · exact .inr (.inr ⟨x, u, hx, hu, ht⟩)

/-! ## The invariant statements -/

/-- Settles O52: a step is a clock edge, a move of hpc or a statement's effect, and each keeps the invariant. -/
theorem everyStepKeepsTheInvariant : Obligations.EveryStepKeepsTheInvariant := by
  intro s t hs h
  obtain h | ⟨n, rfl⟩ | ⟨x, u, -, hu, rfl⟩ := step_next h
  · exact tick_inv hs h
  · exact State.inv_of_frame hs rfl rfl
  · exact State.inv_of_frame (stmtEffect_inv hs hu) rfl rfl

/-- Settles O53, by computing the invariant of the reset state. -/
theorem resetMeetsTheInvariant : Obligations.ResetMeetsTheInvariant :=
  State.inv_iff.2 ⟨Block.inv_reset, rfl⟩

/-- The status codes that a legal RES_STATUS can hold. -/
theorem legal_status_cases : ∀ c : BitVec 3, c.toNat ≤ 2 ∨ c.toNat = 4 → c = 0#3 ∨ c = 1#3 ∨ c = 2#3 ∨ c = 4#3 := by
  decide

/-- Settles O54: the invariant, which the step keeps, taken apart. -/
theorem registersHoldLegalValuesAfterEveryStep : Obligations.RegistersHoldLegalValuesAfterEveryStep := by
  intro s t hs h
  obtain ⟨hblock, -⟩ := State.inv_iff.1 (everyStepKeepsTheInvariant s t hs h)
  obtain ⟨hfields, hbytes, -, hprotocol⟩ := Block.inv_iff.1 hblock
  obtain ⟨hlen, hstatus⟩ := Block.fieldsLegal_iff.1 hfields
  obtain ⟨-, -, hbusy, -⟩ := Block.protocolLegal_iff.1 hprotocol
  refine ⟨hbusy, hlen, fun c hc => legal_status_cases c (hstatus c hc), fun B hB => ?_⟩
  obtain ⟨L, hL, -, hzero⟩ := Block.bytesLegal_iff.1 hbytes B hB
  exact ⟨L, hL, fun i hi h9 => hzero i h9 hi⟩

end Sys2Proof.Machine

/-! # The reset edge, the readable registers, and the commands -/

namespace Sys2Proof.Machine

/-! ## Reset and reads -/

/-- Settles O1: RST comes first at an edge. -/
theorem resetEdgeGivesEveryRegisterItsResetValue : Obligations.ResetEdgeGivesEveryRegisterItsResetValue :=
  ⟨fun lat p s h => by rw [clockEdge, if_pos h]; rfl, rfl⟩

/-- R21, R103: a result read is READ_UNWRITTEN where the field or all the results are. -/
theorem readResult_unwritten {α : Type} {b : Block} {f : Option α} (h : b.resValid = false ∨ f = none) :
    readResult b f = .error .readUnwritten := by
  obtain h | rfl := h
  · simp [readResult, h]
  · simp [readResult]

theorem readResult_some {α : Type} {b : Block} {f : Option α} {a : α} (hv : b.resValid = true) (hf : f = some a) :
    readResult b f = .ok a := by rw [readResult_valid hv, hf, readField_some]

theorem readStatus_unwritten {b : Block} (h : b.resValid = false ∨ b.resStatus = none) :
    readStatus b = .error .readUnwritten := by simp only [readStatus, readResult_unwritten h]

theorem readStatus_some {b : Block} {c : BitVec 3} (hv : b.resValid = true) (hc : b.resStatus = some c) :
    readStatus b = checkStatus c := by simp only [readStatus, readResult_some hv hc]

theorem checkStatus_produced {c : BitVec 3} (h : c.toNat < 5) : checkStatus c = .ok c :=
  if_neg (by omega)

theorem checkStatus_neverProduced {c : BitVec 3} (h : 5 ≤ c.toNat) : checkStatus c = .error .brokenStatus :=
  if_pos h

/-- R103: while RES_VALID = 0 no result register can be read. -/
theorem readReg_invalid {b : Block} (h : b.resValid = false) {r : ResultReg} (hv : r ≠ .resValid) (hb : r ≠ .busy) :
    readReg b r = .error .readUnwritten := by
  cases r with
  | resValue | resBytes | resLen => simp only [readReg, readResult_unwritten (.inl h), Except.map]
  | resStatus => simp only [readReg, readStatus_unwritten (.inl h), Except.map]
  | resValid => exact absurd rfl hv
  | busy => exact absurd rfl hb

/-- Settles O4, by the rules of a result read. -/
theorem readingUnwrittenFieldFaults : Obligations.ReadingUnwrittenFieldFaults := by
  refine ⟨fun b h => ?_, fun b h => ?_, fun b => ⟨rfl, rfl⟩⟩
  · exact ⟨readReg_invalid h (by simp) (by simp), readReg_invalid h (by simp) (by simp),
      readReg_invalid h (by simp) (by simp), readReg_invalid h (by simp) (by simp)⟩
  · refine ⟨fun hf => ?_, fun hf => ?_, fun hf => ?_, fun hf => ?_, fun v hf => ?_, fun B hf => ?_, fun L hf => ?_,
      fun c hf hc => ?_, fun c hf hc => ?_⟩
    · simp only [readReg, readResult_unwritten (.inr hf), Except.map]
    · simp only [readReg, readResult_unwritten (.inr hf), Except.map]
    · simp only [readReg, readResult_unwritten (.inr hf), Except.map]
    · simp only [readReg, readStatus_unwritten (.inr hf), Except.map]
    · simp only [readReg, readResult_some h hf, Except.map]
    · simp only [readReg, readResult_some h hf, Except.map]
    · simp only [readReg, readResult_some h hf, Except.map]
    · simp only [readReg, readStatus_some h hf, checkStatus_produced hc, Except.map]
    · simp only [readReg, readStatus_some h hf, checkStatus_neverProduced hc, Except.map]

/-! ## What a command writes, and from what -/

/-- Settles O35: the results of each command, a VDEC and a VCHECK by their outcomes. -/
theorem eachCommandWritesTheFieldsOfItsRow : Obligations.EachCommandWritesTheFieldsOfItsRow := by
  intro i s hb
  refine ⟨_, exec_idle i hb, rfl, rfl, rfl, rfl, ?_⟩
  cases i with
  | venclen v => exact ⟨rfl, rfl, rfl, rfl⟩
  | venc v => exact ⟨rfl, rfl, rfl, rfl⟩
  | vdeclen b0 => exact ⟨rfl, rfl, rfl, rfl⟩
  | vdec B a =>
    simp only [resultsOf]
    obtain h | h | ⟨v, h⟩ := vdecResults_cases B a <;> rw [h]
    · exact ⟨.inr ⟨.inl rfl, rfl⟩, rfl, rfl⟩
    · exact ⟨.inr ⟨.inr rfl, rfl⟩, rfl, rfl⟩
    · exact ⟨.inl ⟨rfl, rfl⟩, rfl, rfl⟩
  | vcheck b0 v =>
    simp only [resultsOf]
    obtain h | h := vcheckResults_cases b0 v <;> rw [h]
    · exact ⟨.inr rfl, rfl, rfl, rfl⟩
    · exact ⟨.inl rfl, rfl, rfl, rfl⟩
  | zzenc v => exact ⟨rfl, rfl, rfl, rfl⟩
  | zzdec v => exact ⟨rfl, rfl, rfl, rfl⟩
  | reserved => exact ⟨rfl, rfl, rfl, rfl⟩

/-- Settles O36: the block every accepting state is left with is that of the command's results. -/
theorem resultsDependOnOperandsAlone : Obligations.ResultsDependOnOperandsAlone := fun i _ _ hs hs' =>
  ⟨(resultsOf i).toBlock, exec_idle i hs, exec_idle i hs', exec_idle i (toBlock_busy _)⟩

end Sys2Proof.Machine

/-! # The lines of a script -/

namespace Sys2Proof.Machine

/-! ## A line that is no control line -/

/-- The statement decides itself where the host goes on: a branch, or HALT. -/
def isControl : Stmt → Bool
  | .halt | .br _ | .bst _ _ | .bnst _ _ => true
  | _ => false

/-- The step at a line that is no control line: its effect, and then the next line. -/
theorem step_effect {s : State} {x : Stmt} (hc : currentStmt s = some x) (hw : x.wf = true)
    (hx : isControl x = false) :
    step s = andThen (stmtEffect Config.latency Config.freeRead x s) fun t => .next (advance t) := by
  rw [step_at hc]
  unfold runStmt
  rw [if_pos hw]
  split
  case h_5 => rfl
  all_goals cases hx

theorem step_effect_fault {s : State} {x : Stmt} {f : Fault} (hc : currentStmt s = some x) (hw : x.wf = true)
    (hx : isControl x = false) (h : stmtEffect Config.latency Config.freeRead x s = .fault f) :
    step s = .fault f := by rw [step_effect hc hw hx, h, andThen_fault]

/-- A line whose effect is one host command is that command, the copies to ST and HV, and the next line (R55). -/
theorem step_command {s : State} {x : Stmt} {r : Record} {i : Instr} (hb : s.block.busy = false)
    (hc : currentStmt s = some x) (hw : x.wf = true) (hx : isControl x = false)
    (h : stmtEffect Config.latency Config.freeRead x s = hostCommand r s) (hi : decodeRecord r = i) :
    ∃ t, exec i s = .next t ∧ step s = .next (s.afterScriptCommand t.block) := by
  refine ⟨_, exec_idle i hb, ?_⟩
  rw [step_effect hc hw hx, h, hostCommand_idle hb, andThen_next, advance_afterCommand, hi]

/-- Settles O9, by the equation of a packed line. -/
theorem stepRunsTheDecodedCommand : Obligations.StepRunsTheDecodedCommand := by
  intro s bs i hc hd
  have hp : packedStmt bs s = andThen (exec i s) fun t => .next (afterCommand t) := by simp only [packedStmt, hd]
  rw [step_effect hc rfl rfl, stmtEffect, hp]
  cases exec i s <;> rfl

/-- Settles O56, by the outcomes of a clock edge, which leaves the host alone and is never refused. -/
theorem edgeLineIsOneClockEdge : Obligations.EdgeLineIsOneClockEdge := by
  intro s p hc
  have hstep := step_effect hc rfl rfl
  refine ⟨fun t ht => ?_, fun f hf => ?_, clockEdge_ne_refused _ p s⟩
  · rw [hstep, stmtEffect, ht, andThen_next, ← clockEdge_host ht]; rfl
  · exact step_effect_fault hc rfl rfl hf

/-- Settles O41, by the outcomes of reading the register. -/
theorem hostReadOfRegisterFaultsOrGoesOn : Obligations.HostReadOfRegisterFaultsOrGoesOn := by
  intro s r hc
  have hfault (f) (hf : readReg s.block r = .error f) : step s = .fault f :=
    step_effect_fault hc rfl rfl (by rw [stmtEffect, readStmt, hf, withRead_error])
  refine ⟨fun n hn => ?_, hfault, fun h hv hb => hfault _ (readReg_invalid h hv hb)⟩
  rw [step_effect hc rfl rfl, stmtEffect, readStmt, hn, withRead_ok, andThen_next]
  rfl

/-- Settles O42: a control line is an idle edge, a move of hpc, or an effect that reads the block. -/
theorem hostControlLeavesTheBlockAlone : Obligations.HostControlLeavesTheBlockAlone := by
  intro s t x hb hc hx h
  obtain h | ⟨n, rfl⟩ | ⟨y, u, hy, hu, rfl⟩ := step_next h
  · rw [tick_idle hb] at h
    cases h; rfl
  · rfl
  · obtain rfl : x = y := Option.some.inj (hc.symm.trans hy)
    obtain ⟨c, g, rfl⟩ | ⟨c, g, rfl⟩ | ⟨g, rfl⟩ | rfl | ⟨r, rfl⟩ := hx
    case inr.inr.inr.inr =>
      obtain ⟨n, -, rfl⟩ := readStmt_next hu
      rfl
    all_goals cases hu; rfl

/-! ## Branches -/

theorem step_br {s : State} {g : Target} (hc : currentStmt s = some (.br g)) : step s = branch g s := by
  rw [step_at hc]; rfl

theorem step_bst {s : State} {code : Status} {g : Target} (hc : currentStmt s = some (.bst code g)) :
    step s = branchOnStatus true code g s := by
  rw [step_at hc]; rfl

theorem step_bnst {s : State} {code : Status} {g : Target} (hc : currentStmt s = some (.bnst code g)) :
    step s = branchOnStatus false code g s := by
  rw [step_at hc]; rfl

/-- A conditional branch on a produced code: taken where `ST = code` is as asked, else the next line. -/
theorem branchOnStatus_code {sense : Bool} {code : Status} {g : Target} {s : State} {c : BitVec 3}
    (hst : s.host.st = some c) (h4 : c.toNat ≤ 4) :
    branchOnStatus sense code g s =
      if decide (c = statusCode code) = sense then branch g s else .next (advance s) := by
  rw [branchOnStatus, readST_code hst h4, withRead_ok]

theorem branchOnStatus_fault {sense : Bool} {code : Status} {g : Target} {s : State} {f : Fault}
    (h : readST s.host = .error f) : branchOnStatus sense code g s = .fault f := by
  rw [branchOnStatus, h, withRead_error]

section
variable {s : State} {code : Status} {g : Target}

theorem step_bst_equal (hst : s.host.st = some (statusCode code)) (hc : currentStmt s = some (.bst code g)) :
    step s = branch g s := by
  rw [step_bst hc, branchOnStatus_code hst (statusCode_le_four code), if_pos (decide_eq_true rfl)]

theorem step_bnst_equal (hst : s.host.st = some (statusCode code)) (hc : currentStmt s = some (.bnst code g)) :
    step s = .next (advance s) := by
  rw [step_bnst hc, branchOnStatus_code hst (statusCode_le_four code), if_neg (by simp)]

theorem step_bst_other {c : BitVec 3} (hst : s.host.st = some c) (h4 : c.toNat ≤ 4) (hne : c ≠ statusCode code)
    (hc : currentStmt s = some (.bst code g)) : step s = .next (advance s) := by
  rw [step_bst hc, branchOnStatus_code hst h4, if_neg (by simpa using hne)]

theorem step_bnst_other {c : BitVec 3} (hst : s.host.st = some c) (h4 : c.toNat ≤ 4) (hne : c ≠ statusCode code)
    (hc : currentStmt s = some (.bnst code g)) : step s = branch g s := by
  rw [step_bnst hc, branchOnStatus_code hst h4, if_pos (decide_eq_false hne)]

theorem step_conditional_fault {f : Fault} (hc : currentStmt s = some (.bst code g) ∨ currentStmt s = some (.bnst code g))
    (h : readST s.host = .error f) : step s = .fault f := by
  obtain hc | hc := hc
  · rw [step_bst hc, branchOnStatus_fault h]
  · rw [step_bnst hc, branchOnStatus_fault h]

end

theorem branch_label {s : State} {l n : Nat} (h : findLabel s.host.script l = some n) :
    branch (.label l) s = .next (setHpc n s) := by simp only [branch, h]

theorem branch_unknown {s : State} {l : Nat} (h : findLabel s.host.script l = none) :
    branch (.label l) s = .refused .unknownLabel := by simp only [branch, h]

/-- Settles O40: each line is a branch or the next line by ST, and the target is found or not. -/
theorem branchesFollowST : Obligations.BranchesFollowST := by
  intro s code g
  refine ⟨fun n hn => ?_, fun c hst h4 hne hc => step_bst_other hst h4 hne hc,
    fun hst hc => step_bnst_equal hst hc, fun l hl hnone => ?_, fun hc => ⟨fun hst => ?_, fun c hst h5 => ?_⟩⟩
  · have hbranch : branch g s = .next (setHpc n s) := by
      cases g with
      | plus k => rw [show n = s.host.hpc + k from hn]; rfl
      | label l => exact branch_label (findLabel_first hn.1 hn.2)
    exact ⟨fun hc => (step_br hc).trans hbranch, fun hst hc => (step_bst_equal hst hc).trans hbranch,
      fun c hst h4 hne hc => (step_bnst_other hst h4 hne hc).trans hbranch⟩
  · subst hl
    have hbranch : branch (.label l) s = .refused .unknownLabel := branch_unknown (findLabel_none hnone)
    exact ⟨fun hc => (step_br hc).trans hbranch, fun hst hc => (step_bst_equal hst hc).trans hbranch,
      fun c hst h4 hne hc => (step_bnst_other hst h4 hne hc).trans hbranch⟩
  · exact step_conditional_fault hc (by rw [readST, hst, readField_none])
  · exact step_conditional_fault hc (readST_neverProduced hst h5)

/-! ## Shorthands -/

section
variable (x : U64) (B : Lanes) (a : BitVec 4)

@[simp] theorem decodeRecord_venclen : decodeRecord (packRecord 0b000#3 x B a) = .venclen x := by simp [decodeRecord]
@[simp] theorem decodeRecord_venc : decodeRecord (packRecord 0b001#3 x B a) = .venc x := by simp [decodeRecord]
@[simp] theorem decodeRecord_vdeclen : decodeRecord (packRecord 0b010#3 x B a) = .vdeclen (lane B 0) := by
  simp [decodeRecord]
@[simp] theorem decodeRecord_vdec : decodeRecord (packRecord 0b011#3 x B a) = .vdec B a := by simp [decodeRecord]
@[simp] theorem decodeRecord_vcheck : decodeRecord (packRecord 0b100#3 x B a) = .vcheck (lane B 0) x := by
  simp [decodeRecord]
@[simp] theorem decodeRecord_zzenc : decodeRecord (packRecord 0b101#3 x B a) = .zzenc x := by simp [decodeRecord]
@[simp] theorem decodeRecord_zzdec : decodeRecord (packRecord 0b110#3 x B a) = .zzdec x := by simp [decodeRecord]

end

/-- The lane a one-byte operand drives is the byte. -/
theorem lane_lanesOf_singleton (b : Byte) : lane (lanesOf [b]) 0 = b := by
  rw [lane_lanesOf [b] (by simp)]; rfl

theorem valueOf_val {s : State} {x : U64} (h : s.host.hv = some x) : valueOf .val s = .ok x := by
  rw [valueOf, h, readField_some]

theorem valueOf_val_unwritten {s : State} (h : s.host.hv = none) : valueOf .val s = .error .readUnwritten := by
  rw [valueOf, h, readField_none]

theorem valueCommand_ok {op : BitVec 3} {v : ValueArg} {s : State} {x : U64} (h : valueOf v s = .ok x) :
    valueCommand op v s = hostCommand (packRecord op x 0#72 0#4) s := by rw [valueCommand, h, withRead_ok]

theorem valueCommand_fault {op : BitVec 3} {v : ValueArg} {s : State} {f : Fault} (h : valueOf v s = .error f) :
    valueCommand op v s = .fault f := by rw [valueCommand, h, withRead_error]

theorem vdecCommand_ok {b : BytesArg} {g : AvailArg} {s : State} {B : Lanes} {own m : BitVec 4}
    (hb : bytesOf b s = .ok (B, own)) (hm : availOf g own s = .ok m) :
    vdecCommand b g s = hostCommand (packRecord 0b011#3 0#64 B m) s := by
  simp only [vdecCommand, hb, hm, withRead_ok]

theorem bytesOf_enc {s : State} {B : Lanes} {L : BitVec 4} (hv : s.block.resValid = true)
    (hB : s.block.resBytes = some B) (hL : s.block.resLen = some L) : bytesOf .enc s = .ok (B, L) := by
  simp only [bytesOf, readResult_some hv hB, readResult_some hv hL]

theorem bytesOf_enc_unwritten {s : State}
    (h : s.block.resValid = false ∨ s.block.resBytes = none ∨ s.block.resLen = none) :
    bytesOf .enc s = .error .readUnwritten := by
  by_cases hfirst : s.block.resValid = false ∨ s.block.resBytes = none
  · simp only [bytesOf, readResult_unwritten hfirst]
  · obtain ⟨hvalid, hbytes⟩ := not_or.1 hfirst
    obtain ⟨B, hB⟩ := Option.ne_none_iff_exists'.1 hbytes
    have hL := (h.resolve_left hvalid).resolve_left hbytes
    simp only [bytesOf, readResult_some (eq_true_of_ne_false hvalid) hB, readResult_unwritten (.inr hL)]

theorem vdecCommand_enc_unwritten {g : AvailArg} {s : State}
    (h : s.block.resValid = false ∨ s.block.resBytes = none ∨ s.block.resLen = none) :
    vdecCommand .enc g s = .fault .readUnwritten := by
  rw [vdecCommand, bytesOf_enc_unwritten h, withRead_error]

/-- Settles O39: the shorthand's read gives the operand of the line's one command, or its fault ends the step. -/
theorem operandShorthandsReadTheHostsCopies : Obligations.OperandShorthandsReadTheHostsCopies := by
  intro s hb
  refine ⟨fun x b0 hx => ?_, fun x b0 hx hc hmem => ?_, fun B L hv hB hL => ⟨fun hc => ?_, fun a hc => ?_⟩,
    fun bs L hv hL h9 hc => ?_, fun a h hc => ?_, fun bs h h9 hc => ?_, fun h hc => ?_⟩
  · have hval := valueOf_val hx
    refine ⟨fun hc => ?_, fun hc => ?_, fun hc => ?_, fun hc => ?_, fun hc => ?_⟩
    · exact step_command hb hc rfl rfl (valueCommand_ok hval) (decodeRecord_venclen x _ _)
    · exact step_command hb hc rfl rfl (valueCommand_ok hval) (decodeRecord_venc x _ _)
    · refine step_command hb hc rfl rfl (r := packRecord 0b100#3 x (lanesOf [b0]) 0#4) ?_ ?_
      · rw [stmtEffect, hval, withRead_ok]
      · rw [decodeRecord_vcheck, lane_lanesOf_singleton]
    · exact step_command hb hc rfl rfl (valueCommand_ok hval) (decodeRecord_zzenc x _ _)
    · exact step_command hb hc rfl rfl (valueCommand_ok hval) (decodeRecord_zzdec x _ _)
  · have hval := valueOf_val_unwritten hx
    have hcommand (op) : valueCommand op .val s = .fault .readUnwritten := valueCommand_fault hval
    simp only [List.mem_cons, List.not_mem_nil, or_false] at hmem
    obtain rfl | rfl | rfl | rfl | rfl | rfl := hmem
    case inr.inr.inl => exact step_effect_fault hc rfl rfl (by rw [stmtEffect, hval, withRead_error])
    case inr.inr.inr.inr.inr =>
      exact step_effect_fault hc rfl rfl (by rw [stmtEffect, sencStmt, hcommand, andThen_fault])
    all_goals exact step_effect_fault hc rfl rfl (hcommand _)
  · obtain hc | hc := hc
    · exact step_command hb hc rfl rfl (vdecCommand_ok (bytesOf_enc hv hB hL) rfl) (decodeRecord_vdec _ B L)
    · exact step_command hb hc rfl rfl (vdecCommand_ok (bytesOf_enc hv hB hL) (readResult_some hv hL))
        (decodeRecord_vdec _ B L)
  · exact step_command hb hc rfl rfl (vdecCommand_ok (bytesOf_enc hv hB hL) rfl) (decodeRecord_vdec _ B a)
  · exact step_command hb hc (decide_eq_true h9) rfl (vdecCommand_ok rfl (readResult_some hv hL))
      (decodeRecord_vdec _ _ L)
  · exact step_effect_fault hc rfl rfl (vdecCommand_enc_unwritten h)
  · refine step_effect_fault hc (decide_eq_true h9) rfl ?_
    simp only [stmtEffect, vdecCommand, bytesOf, withRead_ok, availOf, readResult_unwritten h, withRead_error]
  · refine step_effect_fault hc rfl rfl ?_
    rw [stmtEffect, sdecStmt, vdecCommand_enc_unwritten h, andThen_fault]

/-! ## A command in flight after the script -/

/-- The state with `f` as its command in flight, as a tick leaves it (R102). -/
def State.withInFlight (s : State) (f : InFlight) : State := { s with block := { s.block with inflight := some f } }

@[simp] theorem State.withInFlight_inflight (s : State) (f : InFlight) :
    (s.withInFlight f).block.inflight = some f := rfl
@[simp] theorem State.withInFlight_busy (s : State) (f : InFlight) :
    (s.withInFlight f).block.busy = s.block.busy := rfl
@[simp] theorem State.withInFlight_ended (s : State) (f : InFlight) : (s.withInFlight f).ended = s.ended := rfl
@[simp] theorem State.withInFlight_withInFlight (s : State) (f g : InFlight) :
    (s.withInFlight f).withInFlight g = s.withInFlight g := rfl

/-- A clock edge brings a command with cycles left one cycle nearer its completion (R102). -/
theorem tick_inFlight {s : State} {f : InFlight} (hb : s.block.busy = true) (hf : s.block.inflight = some f)
    (h : 2 ≤ f.remaining) : tick s = .next (s.withInFlight { f with remaining := f.remaining - 1 }) := by
  obtain ⟨n, hn⟩ := Nat.exists_eq_add_of_le' h
  simp [tick, hb, hf, hn, State.withInFlight]

/-- A clock edge in a command's last cycle completes it (R102). -/
theorem tick_completes {s : State} {f : InFlight} (hb : s.block.busy = true) (hf : s.block.inflight = some f)
    (h : f.remaining ≤ 1) :
    tick s = .next { s with block := (resultsOf (decodeRecord f.record)).toBlock } := by
  have hc : completeInFlight f s = .next { s with block := (resultsOf (decodeRecord f.record)).toBlock } :=
    exec_idle _ rfl
  obtain h0 | h1 : f.remaining = 0 ∨ f.remaining = 1 := by omega
  · simp only [tick, hb, hf, h0, if_true, hc]
  · simp only [tick, hb, hf, h1, if_true, hc]

theorem runSteps_inFlight {n : Nat} {s : State} {f : InFlight} (he : s.ended = true) (hb : s.block.busy = true)
    (hf : s.block.inflight = some f) (h : n < f.remaining) :
    runSteps n s = .next (s.withInFlight { f with remaining := f.remaining - n }) := by
  induction n generalizing s f with
  | zero => rw [Nat.sub_zero, State.withInFlight, ← hf]; rfl
  | succ n ih =>
    rw [runSteps, step_ended he, tick_inFlight hb hf (by omega), andThen_next,
      ih ((s.withInFlight_ended _).trans he) ((s.withInFlight_busy _).trans hb) (s.withInFlight_inflight _)
        (Nat.lt_sub_of_add_lt h),
      State.withInFlight_withInFlight]
    simp only [Nat.sub_sub, Nat.add_comm 1 n]

theorem runSteps_completes {n : Nat} {s : State} {f : InFlight} (he : s.ended = true) (hb : s.block.busy = true)
    (hf : s.block.inflight = some f) (h : f.remaining ≤ n) (h1 : 1 ≤ n) :
    runSteps n s = .next { s with block := (resultsOf (decodeRecord f.record)).toBlock } := by
  induction n generalizing s f with
  | zero => omega
  | succ n ih =>
    rw [runSteps, step_ended he]
    by_cases hlast : f.remaining ≤ 1
    · rw [tick_completes hb hf hlast, andThen_next]
      exact runSteps_idle (s := { s with block := Results.toBlock _ }) he (toBlock_busy _) n
    · rw [tick_inFlight hb hf (by omega), andThen_next]
      exact ih (f := { f with remaining := f.remaining - 1 }) ((s.withInFlight_ended _).trans he)
        ((s.withInFlight_busy _).trans hb) (s.withInFlight_inflight _) (Nat.sub_le_of_le_add h) (by omega)

/-- Settles O57, by induction on the steps after the script's end. -/
theorem commandInFlightCompletesAfterTheScript : Obligations.CommandInFlightCompletesAfterTheScript := by
  intro s f n he hb hf
  exact ⟨runSteps_inFlight he hb hf, fun h h1 => ⟨_, exec_idle _ reset_busy, runSteps_completes he hb hf h h1⟩⟩

end Sys2Proof.Machine

/-! # Machines of a platform -/

namespace Sys2Proof.Machine

section Platform
variable {lat : Nat → BitVec 3 → Nat} {free : Nat → Nat → Option Byte} {p : List State} {j k : Nat} {s u s' u' : State}

/-- A platform's step replaces the one machine that steps by what its own step answers (R98). -/
theorem platformStep_next (hk : p[k]? = some u) (hu : stepWith (lat k) (free k) u = .next u') :
    platformStep lat free k p = .next (p.set k u') := by
  simp only [platformStep, hk, hu]

/-- Two different machines in a row: the second steps from the state it had before the first's step (R37). -/
theorem platformRun_pair_next (hjk : j ≠ k) (hj : p[j]? = some s) (hk : p[k]? = some u)
    (hs : stepWith (lat j) (free j) s = .next s') (hu : stepWith (lat k) (free k) u = .next u') :
    platformRun lat free [j, k] p = .next ((p.set j s').set k u') := by
  have hk' : (p.set j s')[k]? = some u := (List.getElem?_set_ne hjk).trans hk
  simp only [platformRun, platformStep_next hj hs, platformStep_next hk' hu]

end Platform

/-- Settles O55: the two orders replace the same two list entries, and replacing different entries commutes. -/
theorem instancesDoNotInfluenceEachOther : Obligations.InstancesDoNotInfluenceEachOther := by
  intro lat free p j k s u s' u' hjk hj hk hs hu
  have hlj : j < p.length := (List.getElem?_eq_some_iff.1 hj).1
  have hlk : k < p.length := (List.getElem?_eq_some_iff.1 hk).1
  refine ⟨(p.set j s').set k u', platformRun_pair_next hjk hj hk hs hu, ?_, ?_, ?_, fun m hmj hmk => ?_⟩
  · rw [List.set_comm _ _ hjk]
    exact platformRun_pair_next hjk.symm hk hj hu hs
  · rw [List.getElem?_set_ne hjk.symm, List.getElem?_set_self hlj]
  · rw [List.getElem?_set_self (by rwa [List.length_set])]
  · rw [List.getElem?_set_ne hmk.symm, List.getElem?_set_ne hmj.symm]

end Sys2Proof.Machine

/-! # The packed record, and the load of a program -/

namespace Sys2Proof.Machine

/-! ## Record bytes -/

/-- Eighteen bytes that form a record's number decode to the record's command. -/
theorem decodePacked_record {bs : List Byte} {r : Record} (hlen : bs.length = 18) (hr : leList bs = r.toNat) :
    decodePacked bs = .ok (decodeRecord r) := by
  have hlt : leList bs < 2 ^ 143 := hr ▸ r.isLt
  rw [decodePacked, if_neg (by omega), if_neg (by omega), if_neg (by omega), hr, BitVec.ofNat_toNat, BitVec.setWidth_eq]

theorem decodePacked_bytesLE (r : Record) : decodePacked (bytesLE 18 r.toNat) = .ok (decodeRecord r) := by
  have hlt := r.isLt
  exact decodePacked_record (length_bytesLE 18 _) (by rw [leList_bytesLE, Nat.mod_eq_of_lt (by omega)])

theorem decodeRecord_encode (i : Instr) : decodeRecord (encode i) = i := by
  cases i with
  | venclen v => exact decodeRecord_venclen v _ _
  | venc v => exact decodeRecord_venc v _ _
  | vdeclen b0 => exact (decodeRecord_vdeclen _ _ _).trans (congrArg _ (lane_setWidth b0))
  | vdec bytes avail => exact decodeRecord_vdec _ bytes avail
  | vcheck b0 v => exact (decodeRecord_vcheck v _ _).trans (congrArg (Instr.vcheck · v) (lane_setWidth b0))
  | zzenc v => exact decodeRecord_zzenc v _ _
  | zzdec v => exact decodeRecord_zzdec v _ _
  | reserved => simp [decodeRecord, encode, opOf]

/-- Settles O5: the record by cases on the command, and its bytes by the number they form. -/
theorem decodeOfEncodeIsTheCommand : Obligations.DecodeOfEncodeIsTheCommand := fun i =>
  ⟨decodeRecord_encode i, (decodePacked_bytesLE _).trans (congrArg _ (decodeRecord_encode i))⟩

/-- Settles O7: each number is a record's, and the record's fields are computed. -/
theorem specRecordsDecodeToTheirCommands : Obligations.SpecRecordsDecodeToTheirCommands := by
  have decodes (r : Record) {i : Instr} (h : decodeRecord r = i) : decodePacked (bytesLE 18 r.toNat) = .ok i :=
    h ▸ decodePacked_bytesLE r
  exact ⟨decodes 0#143 (by decide), decodes 0x961#143 (by decide), decodes 0x80000000000000002#143 (by decide),
    decodes 0x100000000000000025900000000000000003#143 (by decide), decodes 0x100000000000000404#143 (by decide),
    decodes 0x7FFFFFFFFFFFFFDFD#143 (by decide), decodes 0x40E#143 (by decide), decodes 7#143 (by decide)⟩

/-- Settles O8, by the tests of the decoder in their order. -/
theorem recordBytesDecodeOrAreRejectedByName : Obligations.RecordBytesDecodeOrAreRejectedByName := by
  refine fun bs => ⟨fun h => ?_, fun h => ?_, fun hlen h => ?_, fun r hr hlen => decodePacked_record hlen hr⟩
  · rw [decodePacked, if_pos h]
  · rw [decodePacked, if_neg (by omega), if_pos h]
  · rw [decodePacked, if_neg (by omega), if_neg (by omega), if_pos h]

/-! ## The fields of a record as numbers -/

theorem recordOp_toNat (r : Record) : (recordOp r).toNat = r.toNat % 8 := by
  simp [recordOp, BitVec.extractLsb'_toNat]

theorem recordValue_eq (r : Record) : recordValue r = BitVec.ofNat 64 (r.toNat / 2 ^ 3) := by
  rw [← Nat.shiftRight_eq_div_pow]; rfl

theorem recordBytes_eq (r : Record) : recordBytes r = BitVec.ofNat 72 (r.toNat / 2 ^ 67) := by
  rw [← Nat.shiftRight_eq_div_pow]; rfl

theorem recordAvail_eq (r : Record) : recordAvail r = BitVec.ofNat 4 (r.toNat / 2 ^ 139) := by
  rw [← Nat.shiftRight_eq_div_pow]; rfl

theorem lane_recordBytes_zero (r : Record) : lane (recordBytes r) 0 = BitVec.ofNat 8 (r.toNat / 2 ^ 67) := by
  apply BitVec.eq_of_toNat_eq
  rw [lane_toNat, recordBytes_eq, BitVec.toNat_ofNat, BitVec.toNat_ofNat]
  omega

/-- Settles O6: the decoder matches on the op field's number, and its operands are fields of the record. -/
theorem opFieldSelectsCommandAndOperandsAreRecordBits :
    Obligations.OpFieldSelectsCommandAndOperandsAreRecordBits := by
  intro r
  rw [← recordOp_toNat, ← recordValue_eq, ← recordBytes_eq, ← recordAvail_eq, ← lane_recordBytes_zero]
  refine ⟨?_, ?_, ?_, ?_, ?_, ?_, ?_, ?_⟩ <;> intro h <;> simp only [decodeRecord, h]

/-! ## A placed table word -/

theorem decodeTableWord_some {nbits w : Nat} {i : Instr} (h : decodeTableWord nbits w = some i) :
    decodePacked (tableWordBytes nbits w) = .ok i := by
  unfold decodeTableWord at h
  split at h
  · next hd => rw [hd, Option.some.inj h]
  · cases h

/-- Settles O10: the placed word is the packed line the host is at. -/
theorem placedTableWordIsTheNextCommand : Obligations.PlacedTableWordIsTheNextCommand := by
  intro s nbits w i h hb
  have hexec := exec_idle i (s := s.withFetchWord nbits w) hb
  refine ⟨_, hexec, ?_⟩
  rw [stepRunsTheDecodedCommand _ _ i (currentStmt_withFetchWord s nbits w) (decodeTableWord_some h), hexec]
  rfl

/-! ## The load of a program -/

/-- The load finds no problem exactly with a well-formed program. -/
theorem programProblem_eq_none_iff {p : Program} : programProblem p = none ↔ p.wf = true := by
  unfold programProblem Program.wf
  cases p.script.all fun l => l.stmt.wf
  · simp
  cases p.labelsDistinct
  · simp
  cases p.labelsDefined
  · simp
  cases p.resourcesThere
  · simp
  cases p.noReserved <;> simp

theorem loadProgram_refused {p : Program} (s : State) (h : p.wf = false) : ∃ r, loadProgram p s = .refused r := by
  have hproblem : programProblem p ≠ none := mt programProblem_eq_none_iff.1 (by simp [h])
  obtain ⟨r, hr⟩ := Option.ne_none_iff_exists'.1 hproblem
  exact ⟨r, by simp only [loadProgram, hr]⟩

/-- Settles O59: a program is loaded exactly where it has no problem, and the loaded host is written out. -/
theorem loadedProgramStartsAtItsFirstLine : Obligations.LoadedProgramStartsAtItsFirstLine := by
  refine fun p s => ⟨fun h => ?_, loadProgram_refused s⟩
  rw [loadProgram, programProblem_eq_none_iff.2 h]
  refine ⟨_, rfl, rfl, rfl, rfl, rfl, rfl, rfl, rfl, ?_, ?_, List.length_replicate,
    fun b hb => List.eq_of_mem_replicate hb⟩
  · simp [Function.comp_def]
  · intro src hsrc
    obtain ⟨bs, -, rfl⟩ := List.mem_map.1 hsrc
    exact ⟨rfl, rfl⟩

/-! ## The reserved op -/

theorem decodeRecord_reserved {r : Record} (h : recordOp r = 7#3) : decodeRecord r = .reserved := by
  simp [decodeRecord, h]

theorem wf_eq_false_of_issuesReserved {p : Program} {l : Line} (hl : l ∈ p.script)
    (h : l.stmt.issuesReserved = true) : p.wf = false := by
  have hres : p.noReserved = false := by
    rw [Program.noReserved, List.all_eq_false]
    exact ⟨l, hl, by simp [h]⟩
  rw [Program.wf, hres, Bool.and_false]

/-- Settles O34: op 7 decodes to the reserved command, and a script that issues it is not well-formed. -/
theorem reservedOpReportsIllegalOpAndScriptsMayNotIssueIt :
    Obligations.ReservedOpReportsIllegalOpAndScriptsMayNotIssueIt := by
  refine ⟨fun r s h hb => ?_, fun p s l hl h => loadProgram_refused s (wf_eq_false_of_issuesReserved hl h)⟩
  rw [decodeRecord_reserved h, exec_idle _ hb]
  rfl

end Sys2Proof.Machine

/-! # The wire format: VENC, VDEC and the classes of byte sequences -/

namespace Sys2Proof.Machine

/-! ## The lanes of an accepted encoding -/

/-- R53: the first `n + 1` lanes of an input with tag `n` are the encoding of the value they hold. -/
theorem encodeLanes_decodeValue (B : Lanes) :
    (encodeLanes (decodeValue B (tz8 (lane B 0))) (tz8 (lane B 0))).toNat =
      B.toNat % 2 ^ (8 * (tz8 (lane B 0) + 1)) := by
  have hle := tz8_le (lane B 0)
  have hshape := tz8_shape (lane B 0)
  have hzero := tz8_eight (lane B 0)
  have hlane := lane_toNat B 0
  rw [Nat.mul_zero, Nat.pow_zero, Nat.div_one] at hlane
  generalize tz8 (lane B 0) = n at *
  by_cases h : n < 8
  · rw [encodeLanes_tagged _ n h (decodeValue_lt B n h), decodeValue_tagged B n h]
    have hmod : B.toNat % 2 ^ (8 * (n + 1)) % 2 ^ (n + 1) = 2 ^ n := by
      rw [← hshape h, hlane, Nat.mod_mod_of_dvd _ (Nat.pow_dvd_pow 2 (by omega)),
        show 256 = 2 ^ 8 by rfl, Nat.mod_mod_of_dvd _ (Nat.pow_dvd_pow 2 (by omega))]
    have hdiv := Nat.div_add_mod (B.toNat % 2 ^ (8 * (n + 1))) (2 ^ (n + 1))
    rw [hmod, Nat.pow_succ 2 n] at hdiv
    rw [Nat.pow_succ 2 n]
    linarith
  · obtain rfl : n = 8 := by omega
    rw [hzero.1 rfl] at hlane
    rw [encodeLanes_maximal _ _ h, decodeValue_maximal _ _ h, Nat.mod_eq_of_lt (by simpa using B.isLt)]
    have : B.toNat % 256 = 0 := hlane.symm
    omega

/-- R53: an input that passes VDEC's canonical-form test is VENC's encoding of the value it holds. -/
theorem accepted_is_encoding {B : Lanes} {v : U64} (hv : decodeValue B (tz8 (lane B 0)) = v)
    (hc : canonReject (lane B 0) v = false) :
    ntag v = tz8 (lane B 0) ∧ ∀ i < tz8 (lane B 0) + 1, lane B i = lane (encodeLanes v (ntag v)) i := by
  have hn : ntag v = tz8 (lane B 0) := ntag_of_accepted hc fun h => hv ▸ decodeValue_lt B _ h
  refine ⟨hn, lanes_of_mod_eq ?_⟩
  rw [hn, ← hv, encodeLanes_decodeValue, Nat.mod_mod]

/-- An input that begins with the lanes of `VENC v` has `v`'s tag and value, in canonical form (R68). -/
theorem encoding_is_accepted {B : Lanes} {v : U64}
    (h : ∀ i < ntag v + 1, lane B i = lane (encodeLanes v (ntag v)) i) :
    tz8 (lane B 0) = ntag v ∧ decodeValue B (ntag v) = v ∧ canonReject (lane B 0) v = false := by
  rw [h 0 (Nat.succ_pos _)]
  exact ⟨tz8_encodeLanes v, decodeValue_encodeLanes v B (mod_eq_of_lanes h), canonReject_encodeLanes v⟩

/-- All that an OK of VDEC says of its input (R64). -/
theorem vdecResults_value {B : Lanes} {a : BitVec 4} {v : U64} (h : (vdecResults B a).value = some v) :
    tz8 (lane B 0) + 1 ≤ availEff a ∧ decodeValue B (tz8 (lane B 0)) = v ∧ canonReject (lane B 0) v = false := by
  by_cases hm : availEff a < tz8 (lane B 0) + 1
  · rw [vdecResults_truncated hm, raise_value] at h
    cases h
  · rw [vdecResults_whole (by omega)] at h
    split at h
    · rw [raise_value] at h
      cases h
    · next hc =>
      have hv : decodeValue B (tz8 (lane B 0)) = v := Option.some.inj h
      exact ⟨by omega, hv, hv ▸ eq_false_of_ne_true hc⟩

/-- Settles O23: what VDEC accepts is in canonical form, so its tag is the value's minimal one. -/
theorem acceptedInputIsTheEncodingOfItsValue : Obligations.AcceptedInputIsTheEncodingOfItsValue := by
  intro B a v s t h hval
  obtain ⟨hb, rfl⟩ := exec_next h
  have hval : (vdecResults B a).value = some v := hval
  obtain ⟨hlen, hv, hc⟩ := vdecResults_value hval
  obtain ⟨hn, hlanes⟩ := accepted_is_encoding hv hc
  refine ⟨_, _, exec_idle _ hb, ?_⟩
  rw [ofNat4_toNat (ntag_le v)]
  exact ⟨hn.symm ▸ hlen, fun i hi => hlanes i (hn ▸ hi)⟩

/-! ## VDEC's outcomes -/

section
variable {B : Lanes} {a : BitVec 4} {s : State} (hb : s.block.busy = false)
include hb

theorem exec_vdec_truncated (hm : availEff a < tz8 (lane B 0) + 1) :
    exec (.vdec B a) s = .next { s with block := Block.completed none none none 1#3 } := by
  rw [exec_idle _ hb, resultsOf, vdecResults_truncated hm]
  rfl

theorem exec_vdec_nonCanonical (hm : tz8 (lane B 0) + 1 ≤ availEff a)
    (hc : canonReject (lane B 0) (decodeValue B (tz8 (lane B 0))) = true) :
    exec (.vdec B a) s = .next { s with block := Block.completed none none none 2#3 } := by
  rw [exec_idle _ hb, resultsOf, vdecResults_whole hm, if_pos hc]
  rfl

theorem exec_vdec_ok (hm : tz8 (lane B 0) + 1 ≤ availEff a)
    (hc : canonReject (lane B 0) (decodeValue B (tz8 (lane B 0))) = false) :
    exec (.vdec B a) s =
      .next { s with block := Block.completed (some (decodeValue B (tz8 (lane B 0)))) none none 0#3 } := by
  rw [exec_idle _ hb, resultsOf, vdecResults_whole hm, if_neg (by rw [hc]; simp)]
  rfl

end

/-! ## Lanes that VDEC ignores -/

/-- VDEC reads IN_AVAIL through `avail_eff` alone (R44). -/
theorem vdecResults_congr_avail {B : Lanes} {a a' : BitVec 4} (h : availEff a = availEff a') :
    vdecResults B a = vdecResults B a' := by simp only [vdecResults, h]

theorem vdecResults_congr_lanes {B B' : Lanes} {a : BitVec 4} (h : ∀ i < availEff a, lane B' i = lane B i) :
    vdecResults B' a = vdecResults B a := by
  by_cases h0 : availEff a = 0
  · rw [vdecResults_truncated (by omega), vdecResults_truncated (by omega)]
  have hlane := h 0 (by omega)
  by_cases hm : availEff a < tz8 (lane B 0) + 1
  · rw [vdecResults_truncated (B := B') (by rwa [hlane]), vdecResults_truncated hm]
  · have hv : decodeValue B' (tz8 (lane B 0)) = decodeValue B (tz8 (lane B 0)) :=
      decodeValue_congr (tz8_le _) fun i hi => h i (by omega)
    rw [vdecResults_whole (B := B') (by rw [hlane]; omega), vdecResults_whole (by omega), hlane, hv]

/-- Settles O20: with no lane valid there is nothing to compare; else the first lane, hence the tag, is the same, and the
value's lanes are among the valid ones. -/
theorem vdecIgnoresLanesBeyondAvail : Obligations.VdecIgnoresLanesBeyondAvail := by
  refine ⟨fun B B' a s h => ?_, fun B a s h => ?_⟩
  · rw [exec_eq_issue, exec_eq_issue, resultsOf, resultsOf, vdecResults_congr_lanes h]
  · have ha : availEff a = availEff 9#4 := Nat.min_eq_right h
    rw [exec_eq_issue, exec_eq_issue, resultsOf, resultsOf, vdecResults_congr_avail ha]

/-! ## The classes of byte sequences -/

/-- The lanes a byte sequence drives: its first nine bytes (R55). -/
theorem lane_lanesOf_take (S : List Byte) {i : Nat} (h : i < 9) : lane (lanesOf (S.take 9)) i = S.getD i 0#8 := by
  rw [lane_lanesOf _ (by simp), List.getD_eq_getElem?_getD, List.getD_eq_getElem?_getD, List.getElem?_take_of_lt h]

/-- R50, R51: the value of an encoding in a sequence is the one VDEC reads from the sequence's lanes. -/
theorem wireValue_take (S : List Byte) {n : Nat} (h : n ≤ 8) :
    wireValue n (S.take (n + 1)) = (decodeValue (lanesOf (S.take 9)) n).toNat := by
  have hnum : (lanesOf (S.take 9)).toNat = leList (S.take 9) := lanesOf_toNat _ (by simp)
  by_cases ht : n < 8
  · have htake : (S.take 9).take (n + 1) = S.take (n + 1) := by rw [List.take_take, Nat.min_eq_left (by omega)]
    rw [wireValue, if_pos ht, decodeValue_tagged _ n ht, hnum, Nat.pow_mul, ← leList_take, htake]
  · obtain rfl : n = 8 := by omega
    rw [wireValue, if_neg ht, decodeValue_maximal _ _ ht, hnum, leList_drop_one]

section
variable {S : List Byte} {B : Lanes} (hB : lanesOf (S.take 9) = B)
include hB

theorem wireClass_truncated (h : S.length < tz8 (lane B 0) + 1) : wireClass S = .truncated := by
  subst hB
  rw [lane_lanesOf_take S (by omega)] at h
  cases S with
  | nil => rfl
  | cons b bs => simp only [wireClass, if_pos (show (b :: bs).length < tz8 b + 1 from h)]

/-- R54's classes 3 and 4 by VDEC's own test. -/
theorem wireClass_whole (h : tz8 (lane B 0) + 1 ≤ S.length) :
    wireClass S =
      if canonReject (lane B 0) (decodeValue B (tz8 (lane B 0))) then .nonCanonical
      else .valid (decodeValue B (tz8 (lane B 0))).toNat (S.drop (tz8 (lane B 0) + 1)) := by
  subst hB
  rw [lane_lanesOf_take S (by omega)] at h ⊢
  cases S with
  | nil => simp at h
  | cons b bs =>
    have hlen : ¬ (b :: bs).length < tz8 b + 1 := Nat.not_lt.2 h
    simp only [wireClass, if_neg hlen, wireValue_take _ (tz8_le b), List.getD_cons_zero, canonReject_iff]

theorem wireClass_eq_valid_iff {v : Nat} {rest : List Byte} :
    wireClass S = .valid v rest ↔
      tz8 (lane B 0) + 1 ≤ S.length ∧ canonReject (lane B 0) (decodeValue B (tz8 (lane B 0))) = false ∧
        (decodeValue B (tz8 (lane B 0))).toNat = v ∧ S.drop (tz8 (lane B 0) + 1) = rest := by
  by_cases hlen : S.length < tz8 (lane B 0) + 1
  · rw [wireClass_truncated hB hlen]
    exact ⟨nofun, fun ⟨h, _⟩ => absurd h (Nat.not_le.2 hlen)⟩
  · rw [wireClass_whole hB (Nat.le_of_not_lt hlen)]
    cases canonReject (lane B 0) (decodeValue B (tz8 (lane B 0))) <;> simp [Nat.le_of_not_lt hlen]

end

/-- Settles O24: VDEC's outcomes are R54's classes of the sequence its lanes come from. -/
theorem vdecReportsTheWireClass : Obligations.VdecReportsTheWireClass := by
  intro S a s hb hm
  have hm : availEff a = min S.length 9 := hm
  generalize hB : lanesOf (S.take 9) = B
  have hle := tz8_le (lane B 0)
  by_cases hlen : S.length < tz8 (lane B 0) + 1
  · rw [wireClass_truncated hB hlen]
    exact exec_vdec_truncated hb (by omega)
  have hwhole : tz8 (lane B 0) + 1 ≤ availEff a := by omega
  rw [wireClass_whole hB (Nat.le_of_not_lt hlen)]
  cases hc : canonReject (lane B 0) (decodeValue B (tz8 (lane B 0)))
  · refine ⟨BitVec.isLt _, ?_, ?_⟩
    · rw [List.length_drop]
      omega
    · rw [BitVec.ofNat_toNat, BitVec.setWidth_eq]
      exact exec_vdec_ok hb hwhole hc
  · exact exec_vdec_nonCanonical hb hwhole hc

/-- A sequence that begins with `k` lanes, byte by byte. -/
theorem eq_lanes_append_iff {S rest : List Byte} {E : Lanes} {k : Nat} :
    S = (List.range k).map (lane E) ++ rest ↔
      k ≤ S.length ∧ (∀ i < k, S.getD i 0#8 = lane E i) ∧ S.drop k = rest := by
  constructor
  · rintro rfl
    refine ⟨by simp, fun i hi => ?_, List.drop_left' (by simp)⟩
    rw [List.getD_append _ _ _ _ (by simpa using hi)]
    simp [hi]
  · rintro ⟨hk, hbytes, rfl⟩
    have htake : S.take k = (List.range k).map (lane E) := by
      refine List.ext_getElem (by simpa using hk) fun i hi _ => ?_
      have hi : i < k := by simp at hi; omega
      rw [List.getElem_take, List.getElem_map, List.getElem_range, ← hbytes i hi,
        List.getD_eq_getElem _ _ (by omega)]
    rw [← htake, List.take_append_drop]

/-- Settles O25: a valid sequence's lanes are accepted, so they are the encoding of their value; and the lanes of an
encoding are accepted with the value encoded. -/
theorem validSequencesAreTheEncodedValues : Obligations.ValidSequencesAreTheEncodedValues := by
  intro v s hb
  refine ⟨_, _, exec_idle _ hb, fun S rest => ?_⟩
  have hlanes (i) (hi : i < ntag v + 1) : S.getD i 0#8 = lane (lanesOf (S.take 9)) i :=
    (lane_lanesOf_take S (by have := ntag_le v; omega)).symm
  rw [ofNat4_toNat (ntag_le v), eq_lanes_append_iff]
  generalize hB : lanesOf (S.take 9) = B at hlanes
  rw [wireClass_eq_valid_iff hB]
  constructor
  · rintro ⟨hlen, hc, hv, hrest⟩
    have hv := BitVec.eq_of_toNat_eq hv
    obtain ⟨hn, henc⟩ := accepted_is_encoding hv (hv ▸ hc)
    rw [← hn] at hlen hrest henc
    exact ⟨hlen, fun i hi => (hlanes i hi).trans (henc i hi), hrest⟩
  · rintro ⟨hlen, hbytes, hrest⟩
    obtain ⟨hn, hv, hc⟩ := encoding_is_accepted fun i hi => (hlanes i hi).symm.trans (hbytes i hi)
    rw [hn, hv]
    exact ⟨hlen, hc, rfl, hrest⟩

end Sys2Proof.Machine

/-! # Command lines, SENC and SDEC -/

namespace Sys2Proof.Machine

/-! ## Command lines with literals -/

/-- A VDEC line with a byte list drives the list's bytes from lane 0 on, the other lanes zero (R55). -/
theorem step_vdec_list {s : State} {bs : List Byte} {g : AvailArg} {a : BitVec 4} (hb : s.block.busy = false)
    (h9 : bs.length ≤ 9) (hc : currentStmt s = some (.vdec (.list bs) g))
    (ha : availOf g (BitVec.ofNat 4 bs.length) s = .ok a) :
    ∃ (B : Lanes) (t : State), (∀ i < 9, lane B i = bs.getD i 0#8) ∧
      exec (.vdec B a) s = .next t ∧ step s = .next (s.afterScriptCommand t.block) := by
  obtain ⟨t, ht, hstep⟩ := step_command hb hc (decide_eq_true h9) rfl (vdecCommand_ok rfl ha)
    (decodeRecord_vdec _ _ _)
  exact ⟨_, t, fun i _ => lane_lanesOf bs h9 i, ht, hstep⟩

/-- Settles O38: each line is one host command whose record decodes to the command named. -/
theorem scriptLineIssuesItsCommand : Obligations.ScriptLineIssuesItsCommand := by
  intro s hb
  refine ⟨fun z h0 h1 hc => ?_, fun z h0 h1 hc => ?_, fun b0 hc => ?_, fun bs h9 hc => ?_, fun bs a h9 hc => ?_,
    fun b0 z h0 h1 hc => ?_, fun z h0 h1 hc => ?_, fun z h0 h1 hc => ?_⟩
  · exact step_command hb hc (wfUnsigned_lit h0 h1) rfl (valueCommand_ok rfl) (decodeRecord_venclen _ _ _)
  · exact step_command hb hc (wfUnsigned_lit h0 h1) rfl (valueCommand_ok rfl) (decodeRecord_venc _ _ _)
  · exact step_command hb hc rfl rfl rfl (by rw [decodeRecord_vdeclen, lane_lanesOf_singleton])
  · exact step_vdec_list hb h9 hc rfl
  · exact step_vdec_list hb h9 hc rfl
  · exact step_command hb hc (wfUnsigned_lit h0 h1) rfl rfl (by rw [decodeRecord_vcheck, lane_lanesOf_singleton])
  · exact step_command hb hc (wfSigned_lit h0 h1) rfl (valueCommand_ok rfl) (decodeRecord_zzenc _ _ _)
  · exact step_command hb hc (wfUnsigned_lit h0 h1) rfl (valueCommand_ok rfl) (decodeRecord_zzdec _ _ _)

/-! ## SENC and SDEC -/

/-- Of two host commands in a row the second alone is left in the machine (R13). -/
theorem advance_afterCommand_twice (s : State) (b c : Block) :
    advance (afterCommand { afterCommand { s with block := b } with block := c }) = s.afterScriptCommand c := rfl

/-- R55: a SENC line leaves what the VENC of its zigzag pattern does. -/
theorem step_senc {v : ValueArg} {s : State} {x : U64} (hb : s.block.busy = false) (hw : v.wfSigned = true)
    (hc : currentStmt s = some (.senc v)) (hx : valueOf v s = .ok x) :
    step s = .next (s.afterScriptCommand (vencResults (zigzag x)).toBlock) := by
  rw [step_effect hc hw rfl, stmtEffect, sencStmt, valueCommand_idle hb hx (decodeRecord_zzenc x _ _), andThen_next,
    valueCommand_idle rfl (valueOf_val rfl) (decodeRecord_venc (zigzag x) _ _), andThen_next,
    advance_afterCommand_twice]
  rfl

section
variable {b : BytesArg} {s : State} {B : Lanes} {L : BitVec 4} (hb : s.block.busy = false) (hw : b.wf = true)
  (hc : currentStmt s = some (.sdec b)) (hB : bytesOf b s = .ok (B, L))
include hb hw hc hB

/-- A SDEC line is its VDEC, and then what ST decides (R55). -/
theorem step_sdec :
    step s = andThen
      (if statusCode (vdecResults B L).status ≠ statusCode .ok then
        .next (afterCommand { s with block := (vdecResults B L).toBlock })
      else valueCommand 0b110#3 .val (afterCommand { s with block := (vdecResults B L).toBlock }))
      fun t => .next (advance t) := by
  rw [step_effect hc hw rfl, stmtEffect, sdecStmt, vdecCommand_ok hB rfl, hostCommand_idle hb, andThen_next,
    decodeRecord_vdec, readST_code rfl (statusCode_le_four _), withRead_ok]
  rfl

theorem step_sdec_error (h : statusCode (vdecResults B L).status ≠ statusCode .ok) :
    step s = .next (s.afterScriptCommand (vdecResults B L).toBlock) := by
  rw [step_sdec hb hw hc hB, if_pos h, andThen_next, advance_afterCommand]

theorem step_sdec_ok {w : U64} (h : vdecResults B L = { status := .ok, value := some w }) :
    step s = .next (s.afterScriptCommand (zzdecResults w).toBlock) := by
  rw [step_sdec hb hw hc hB, h, if_neg (not_not.2 rfl),
    valueCommand_idle rfl (valueOf_val rfl) (decodeRecord_zzdec w _ _), andThen_next, advance_afterCommand_twice]
  rfl

end

/-- Of VDEC's outcomes the one with status OK has a value (R84). -/
theorem vdecResults_of_ok {B : Lanes} {a : BitVec 4} (h : statusCode (vdecResults B a).status = statusCode .ok) :
    ∃ w, vdecResults B a = { status := .ok, value := some w } := by
  obtain hr | hr | hr := vdecResults_cases B a
  · rw [hr] at h; cases h
  · rw [hr] at h; cases h
  · exact hr

/-- Settles O50: the operand is read, and each expansion leaves what its last command does. -/
theorem sencAndSdecRunTheirExpansions : Obligations.SencAndSdecRunTheirExpansions := by
  intro s hb
  refine ⟨fun v x hw hc hx => ?_, fun b B L hw hc hB => ?_⟩
  · have hval : valueOf v s = .ok x := by
      cases v with
      | lit z => rw [hx]; rfl
      | val => exact valueOf_val hx
    exact ⟨_, zigzag x, _, exec_idle _ hb, rfl, exec_idle _ rfl, step_senc hb hw hc hval⟩
  · have hbytes : bytesOf b s = .ok (B, L) := by
      cases b with
      | list bs => rw [hB.1, hB.2]; rfl
      | enc => exact bytesOf_enc hB.1 hB.2.1 hB.2.2
    refine ⟨_, exec_idle _ hb, fun hst => ?_, fun hst => ?_⟩
    · exact step_sdec_error hb hw hc hbytes fun h => hst (congrArg some h)
    · obtain ⟨w, hr⟩ := vdecResults_of_ok (Option.some.inj hst)
      exact ⟨w, _, congrArg Results.value hr, exec_idle _ rfl, step_sdec_ok hb hw hc hbytes hr⟩

/-! ## Round trips -/

/-- R68: VDEC of what VENC wrote is the value. -/
theorem vdecResults_encodeLanes (v : U64) :
    vdecResults (encodeLanes v (ntag v)) (BitVec.ofNat 4 (ntag v + 1)) = { status := .ok, value := some v } := by
  have hle := ntag_le v
  obtain ⟨hn, hv, hc⟩ := encoding_is_accepted (B := encodeLanes v (ntag v)) fun i _ => rfl
  rw [vdecResults_whole (by rw [hn, availEff, ofNat4_toNat hle]; omega), hn, hv, hc]
  rfl

theorem getLsbD_if_allOnes (b : Bool) {i : Nat} (hi : i < 64) :
    (if b then BitVec.allOnes 64 else 0#64).getLsbD i = b := by
  cases b
  · exact BitVec.getLsbD_zero
  · rw [if_pos rfl, BitVec.getLsbD_allOnes, decide_eq_true hi]

/-- Bit `i` of R79's formula: the pattern's bit below it, complemented by the sign. -/
theorem getLsbD_zigzag (s : U64) {i : Nat} (hi : i < 64) :
    (zigzag s).getLsbD i = ((!decide (i < 1) && s.getLsbD (i - 1)) ^^ s.msb) := by
  rw [zigzag, BitVec.getLsbD_xor, sar_sixty_three, getLsbD_if_allOnes _ hi, shl, BitVec.getLsbD_shiftLeft,
    decide_eq_true hi, Bool.true_and]

/-- `0 - (u & 1)` is 0 or all ones by the low bit. -/
theorem neg_low_bit (u : U64) : 0#64 - (u &&& 1#64) = if u.getLsbD 0 then BitVec.allOnes 64 else 0#64 := by
  rw [BitVec.and_one_eq_setWidth_ofBool_getLsbD]
  cases u.getLsbD 0 <;> decide

/-- Bit `i` of R81's formula: the pattern's bit above it, complemented by the low bit. -/
theorem getLsbD_unzigzag (u : U64) {i : Nat} (hi : i < 64) :
    (unzigzag u).getLsbD i = (u.getLsbD (i + 1) ^^ u.getLsbD 0) := by
  rw [unzigzag, BitVec.getLsbD_xor, neg_low_bit, getLsbD_if_allOnes _ hi, shr, BitVec.getLsbD_ushiftRight,
    Nat.add_comm]

/-- R83: the low bit of a zigzag pattern is the sign, and complements the bits above it back. -/
theorem unzigzag_zigzag (s : U64) : unzigzag (zigzag s) = s := by
  apply BitVec.eq_of_getLsbD_eq
  intro i hi
  have hlow : (zigzag s).getLsbD 0 = s.msb := by rw [getLsbD_zigzag s (by omega)]; simp
  rw [getLsbD_unzigzag _ hi, hlow]
  by_cases hlast : i = 63
  · subst hlast
    rw [BitVec.getLsbD_of_ge _ _ (by omega), Bool.false_xor, BitVec.msb_eq_getLsbD_last]
  · rw [getLsbD_zigzag s (by omega)]
    simp

/-- Settles O51: SENC leaves the encoding in the registers that SDEC reads, and both codings are inverted. -/
theorem signedValueSurvivesSencThenSdec : Obligations.SignedValueSurvivesSencThenSdec := by
  intro s z hb h0 h1 hc hnext
  have hsenc := step_senc hb (wfSigned_lit h0 h1) hc rfl
  have hsdec := step_sdec_ok (b := .enc) (s := s.afterScriptCommand (vencResults (zigzag (BitVec.ofInt 64 z))).toBlock)
    rfl rfl hnext (bytesOf_enc rfl rfl rfl) (vdecResults_encodeLanes _)
  have hvalue (x : U64) : zzdecResults (zigzag x) = { status := .ok, value := some x } := by
    rw [zzdecResults, unzigzag_zigzag]
  rw [hvalue] at hsdec
  exact ⟨_, hsenc, _, hsdec, rfl, rfl, rfl, BitVec.ofInt 64 z, rfl, BitVec.toInt_ofInt_eq_self (by omega) h0 h1⟩

end Sys2Proof.Machine

/-! # VENCLEN and VENC, and APPEND -/

namespace Sys2Proof.Machine

/-! ## The encoder's commands -/

section
variable {s : State} (hb : s.block.busy = false)
include hb

theorem exec_venclen (v : U64) :
    exec (.venclen v) s =
      .next { s with block := Block.completed none none (some (BitVec.ofNat 4 (ntag v + 1))) 0#3 } := exec_idle _ hb

theorem exec_venc (v : U64) :
    exec (.venc v) s = .next { s with
      block := Block.completed none (some (encodeLanes v (ntag v))) (some (BitVec.ofNat 4 (ntag v + 1))) 0#3 } :=
  exec_idle _ hb

theorem exec_vdeclen (b0 : Byte) :
    exec (.vdeclen b0) s =
      .next { s with block := Block.completed none none (some (BitVec.ofNat 4 (tz8 b0 + 1))) 0#3 } := exec_idle _ hb

end

/-- Settles O11: the least length is one more than the minimal tag. -/
theorem venclenWritesTheLeastLength : Obligations.VenclenWritesTheLeastLength := by
  intro v s hb
  have hle := ntag_le v
  refine ⟨ntag v + 1, by omega, by omega, fun h => ntag_fits v (by omega), fun h => ?_, exec_venclen hb v⟩
  rw [Nat.add_sub_cancel]
  exact ntag_minimal v (by omega)

/-! ## Leading zeros -/

theorem clz64_le (v : U64) : clz64 v ≤ 64 := leastBelow_le _ _

/-- No bit of a value stands above its leading zeros. -/
theorem lt_two_pow_of_clz64 (v : U64) : v.toNat < 2 ^ (64 - clz64 v) := by
  refine Nat.lt_pow_two_of_testBit _ fun i hi => ?_
  rw [BitVec.testBit_toNat]
  by_cases h : i < 64
  · have hzero := leastBelow_min (fun j => v.getLsbD (63 - j)) 64 (63 - i) (show 63 - i < clz64 v by omega)
    rwa [show 63 - (63 - i) = i by omega] at hzero
  · exact BitVec.getLsbD_of_ge _ _ (by omega)

/-- Below the leading zeros stands a set bit. -/
theorem two_pow_le_of_clz64 {v : U64} (h : clz64 v < 64) : 2 ^ (63 - clz64 v) ≤ v.toNat :=
  Nat.ge_two_pow_of_testBit ((BitVec.testBit_toNat v).trans (leastBelow_holds (fun j => v.getLsbD (63 - j)) 64 h))

theorem clz64_eq_sixty_four_iff (v : U64) : clz64 v = 64 ↔ v = 0 := by
  have hle := clz64_le v
  constructor
  · intro h
    have hlt := lt_two_pow_of_clz64 v
    rw [h] at hlt
    exact BitVec.eq_of_toNat_eq (by simpa using hlt)
  · rintro rfl
    by_contra h
    have hbit : 2 ^ (63 - clz64 0) ≤ (0 : U64).toNat := two_pow_le_of_clz64 (by omega)
    exact absurd hbit (Nat.not_le.2 (Nat.two_pow_pos _))

/-- R57: a tag's form holds the value exactly where its `7(n+1)` payload bits reach below the leading zeros. -/
theorem ntag_eq_clz64 (v : U64) : ntag v = min 8 ((63 - min (clz64 v) 63) / 7) := by
  refine ntag_eq (Nat.min_le_left _ _) (fun h => ?_) fun h => ?_
  · exact (lt_two_pow_of_clz64 v).trans_le (Nat.pow_le_pow_right (by omega) (by omega))
  · exact (Nat.pow_le_pow_right (by omega) (by omega)).trans (two_pow_le_of_clz64 (by omega))

/-- Settles O12, by the two bounds that the leading zeros set to a value. -/
theorem minimalTagHasItsClosedForm : Obligations.MinimalTagHasItsClosedForm := by
  intro v
  have hle := clz64_le v
  refine ⟨ntag_eq_clz64 v, fun h => ?_, (clz64_eq_sixty_four_iff v).2⟩
  have hne := mt (clz64_eq_sixty_four_iff v).1 h
  exact ⟨by omega, two_pow_le_of_clz64 (by omega), lt_two_pow_of_clz64 v⟩

/-- Settles O13: the closed form of the tag on each range of R58. -/
theorem venclenDependsOnLeadingZerosAlone : Obligations.VenclenDependsOnLeadingZerosAlone := by
  intro v s hb
  have hlen : ntag v + 1 = if clz64 v ≤ 7 then 9 else if clz64 v ≤ 63 then 9 - (clz64 v - 1) / 7 else 1 := by
    rw [ntag_eq_clz64]
    split_ifs <;> omega
  rw [exec_venclen hb, hlen]

/-! ## The bits and the lanes of an encoding -/

/-- R50: `(2v + 1) * 2^n` has `n` zeros, a one and then the bits of `v`. -/
theorem getLsbD_encodeLanes_tagged {v : U64} {n : Nat} (h : n < 8) (hv : v.toNat < 2 ^ (7 * (n + 1))) (p : Nat) :
    (encodeLanes v n).getLsbD p = wireBit v n p := by
  rw [← BitVec.testBit_toNat, encodeLanes_tagged v n h hv, Nat.testBit_mul_two_pow, wireBit, if_pos h]
  obtain hp | rfl | hp := Nat.lt_trichotomy p n
  · simp [hp]
  · simp
  · obtain ⟨k, rfl⟩ := Nat.exists_eq_add_of_lt hp
    rw [decide_eq_true (by omega), Bool.true_and, if_neg (by omega), if_neg (by omega),
      show n + k + 1 - n = k + 1 by omega, Nat.testBit_succ, show (2 * v.toNat + 1) / 2 = v.toNat by omega,
      Nat.add_sub_cancel, BitVec.testBit_toNat]

/-- R51: eight zeros, and then the bits of `v`. -/
theorem getLsbD_encodeLanes_maximal (v : U64) {n : Nat} (h : ¬ n < 8) (p : Nat) :
    (encodeLanes v n).getLsbD p = wireBit v n p := by
  rw [encodeLanes, if_neg h, wireBit, if_neg h, BitVec.getLsbD_append, BitVec.getLsbD_zero]

/-- The lanes of a widened word are its bytes. -/
theorem lane_setWidth_word (w : U64) {i : Nat} (h : i < 9) : lane (w.setWidth 72) i = w.extractLsb' (8 * i) 8 := by
  apply BitVec.eq_of_getLsbD_eq
  intro j hj
  simp [lane, show 8 * i + j < 72 by omega]

/-- R51: the first lane of the maximal form is zero. -/
theorem lane_maximal_zero (v : U64) {n : Nat} (h : ¬ n < 8) : lane (encodeLanes v n) 0 = 0#8 := by
  apply BitVec.eq_of_getLsbD_eq
  intro j hj
  rw [lane, BitVec.getLsbD_extractLsb', getLsbD_encodeLanes_maximal v h, wireBit, if_neg h, if_pos (by omega),
    Bool.and_false, BitVec.getLsbD_zero]

/-- R51: the lanes of the maximal form after its first are the bytes of the value. -/
theorem lane_maximal (v : U64) {n k : Nat} (h : ¬ n < 8) (h1 : 1 ≤ k) :
    lane (encodeLanes v n) k = v.extractLsb' (8 * k - 8) 8 := by
  apply BitVec.eq_of_getLsbD_eq
  intro j hj
  rw [lane, BitVec.getLsbD_extractLsb', BitVec.getLsbD_extractLsb', getLsbD_encodeLanes_maximal v h, wireBit,
    if_neg h, if_neg (by omega), show 8 * k + j - 8 = 8 * k - 8 + j by omega]

/-- Settles O14: the lanes of each branch of R59 with the minimal tag. -/
theorem vencWritesTheLanesOfItsForm : Obligations.VencWritesTheLanesOfItsForm := by
  intro v s hb
  refine ⟨ntag v, _, ntag_le v, ntag_fits v, fun h => ntag_minimal v (by omega), fun h => ⟨fun i hi => ?_, ?_⟩,
    fun h => ⟨?_, fun k h1 _ => ?_⟩, exec_venc hb v⟩
  · rw [encodeLanes, if_pos h]
    exact lane_setWidth_word _ (by omega)
  · exact lane_encodeLanes_beyond v (by omega) (by omega)
  · exact lane_maximal_zero v (by omega)
  · exact lane_maximal v (by omega) h1

/-- Every bit that VENC writes is the wire format's. -/
theorem getLsbD_encodeLanes (v : U64) (p : Nat) : (encodeLanes v (ntag v)).getLsbD p = wireBit v (ntag v) p := by
  by_cases h : ntag v < 8
  · exact getLsbD_encodeLanes_tagged h (ntag_fits v h) p
  · exact getLsbD_encodeLanes_maximal v h p

/-- R16: no bit is set beyond an encoding. -/
theorem getLsbD_encodeLanes_beyond (v : U64) {p : Nat} (h : 8 * (ntag v + 1) ≤ p) :
    (encodeLanes v (ntag v)).getLsbD p = false := by
  have hle := ntag_le v
  by_cases ht : ntag v < 8
  · rw [← BitVec.testBit_toNat]
    exact Nat.testBit_lt_two_pow ((encodeLanes_lt ht (ntag_fits v ht)).trans_le (Nat.pow_le_pow_right (by omega) h))
  · exact BitVec.getLsbD_of_ge _ _ (by omega)

/-- Settles O15: below the encoding's end the bits are the wire format's, and beyond it they are zero. -/
theorem vencBitsAreTheWireFormat : Obligations.VencBitsAreTheWireFormat := by
  intro v s hb
  refine ⟨ntag v, _, ntag_le v, ntag_fits v, fun h => ntag_minimal v (by omega), exec_venc hb v, fun p _ => ?_,
    fun h => encodeLanes_tagged v _ h (ntag_fits v h)⟩
  by_cases hp : p < 8 * (ntag v + 1)
  · rw [decide_eq_true hp, Bool.true_and, getLsbD_encodeLanes]
  · rw [decide_eq_false hp, Bool.false_and, getLsbD_encodeLanes_beyond v (by omega)]

/-- Settles O16: the tag of an encoding is in its first lane. -/
theorem encodedAndDecodedLengthsAgree : Obligations.EncodedAndDecodedLengthsAgree := by
  intro v s hb
  have htag := tz8_encodeLanes v
  refine ⟨_, _, exec_venc hb v, exec_venclen hb v, ?_, ?_⟩
  · rw [exec_vdeclen hb, htag]
  · rw [htag, ofNat4_toNat (ntag_le v)]

/-! ## APPEND -/

section
variable {s : State} {k : Nat} {old : List Byte} {v : ValueArg} (hold : s.host.buffers[k]? = some old)
include hold

/-- R62: VENC's results, and the buffer longer by the lanes of the encoding. -/
theorem appendStmt_ok {x : U64} (hb : s.block.busy = false) (hx : valueOf v s = .ok x) :
    appendStmt k v s = .next {
      block := (vencResults x).toBlock,
      host := { s.host with
        st := some (statusCode .ok), hv := none,
        buffers := s.host.buffers.set k
          (old ++ lanesTake (encodeLanes x (ntag x)) (BitVec.ofNat 4 (ntag x + 1)).toNat) } } := by
  have hvenc := valueCommand_idle hb hx (decodeRecord_venc x _ _)
  have henc : bytesOf .enc (afterCommand { s with block := (resultsOf (.venc x)).toBlock }) =
      .ok (encodeLanes x (ntag x), BitVec.ofNat 4 (ntag x + 1)) := bytesOf_enc rfl rfl rfl
  simp only [appendStmt, hold, hvenc, andThen_next, henc, withRead_ok]
  rfl

theorem appendStmt_fault {f : Fault} (hx : valueOf v s = .error f) : appendStmt k v s = .fault f := by
  simp only [appendStmt, hold, valueCommand_fault hx, andThen_fault]

end

/-- Settles O49: the operand is read, or its read's fault ends the step. -/
theorem appendAddsExactlyTheEncodedBytes : Obligations.AppendAddsExactlyTheEncodedBytes := by
  intro s k old v hb hw hc hold
  refine ⟨fun x hx => ?_, fun hv hnone => ?_⟩
  · have hval : valueOf v s = .ok x := by
      cases v with
      | lit z => rw [hx]; rfl
      | val => exact valueOf_val hx
    refine ⟨_, _, exec_venc hb x, ?_⟩
    rw [step_effect hc hw rfl, stmtEffect, appendStmt_ok hold hb hval, andThen_next]
    rfl
  · subst hv
    exact step_effect_fault hc hw rfl (appendStmt_fault hold (valueOf_val_unwritten hnone))

end Sys2Proof.Machine

/-! # The decoder: VDECLEN and VDEC -/

namespace Sys2Proof.Machine

/-! ## What VENC writes, VDEC reads -/

theorem exec_vdec {B : Lanes} {a : BitVec 4} {s : State} (hb : s.block.busy = false) :
    exec (.vdec B a) s = .next { s with block := (vdecResults B a).toBlock } := exec_idle _ hb

/-- R68: VDEC of an input that begins with the lanes of `VENC v`, all of them valid, is OK with `v`. -/
theorem exec_vdec_encoding {v : U64} {B : Lanes} {a : BitVec 4} {s : State} (hb : s.block.busy = false)
    (hB : ∀ i < ntag v + 1, lane B i = lane (encodeLanes v (ntag v)) i) (ha : ntag v + 1 ≤ a.toNat) :
    exec (.vdec B a) s = .next { s with block := Block.completed (some v) none none 0#3 } := by
  have hle := ntag_le v
  obtain ⟨hn, hv, hc⟩ := encoding_is_accepted hB
  have hval : decodeValue B (tz8 (lane B 0)) = v := hn.symm ▸ hv
  rw [exec_vdec_ok hb (by rw [hn, availEff]; omega) (by rw [hval, hc]), hval]

/-- Settles O22: the tag of the input is VENC's, and it alone decides how many lanes VDEC needs. -/
theorem decodeOfEncodedValueIsTheValue : Obligations.DecodeOfEncodedValueIsTheValue := by
  intro v s hb
  have hle := ntag_le v
  refine ⟨_, _, exec_venc hb v, ?_⟩
  rw [ofNat4_toNat hle]
  refine ⟨by omega, by omega, fun B' a s' hb' hB => ⟨exec_vdec_encoding hb' hB, fun ha => ?_⟩⟩
  obtain ⟨hn, -, -⟩ := encoding_is_accepted hB
  exact exec_vdec_truncated hb' (by rw [hn, availEff]; omega)

/-! ## VDECLEN's and VDEC's outcomes -/

/-- Settles O17: `tz8` is the position of the lowest set bit. -/
theorem vdeclenWritesLowestSetBitPlusOne : Obligations.VdeclenWritesLowestSetBitPlusOne := fun b0 _ hb =>
  ⟨tz8 b0, tz8_le b0, tz8_bit b0, tz8_low b0, exec_vdeclen hb b0⟩

/-- Settles O18: truncation first; then the canonical-form test of the value, a natural below `2^64`. -/
theorem vdecDecodesOrReportsItsError : Obligations.VdecDecodesOrReportsItsError := by
  intro B a s n m hb hn hm
  rw [hn, hm]
  refine ⟨exec_vdec_truncated hb, fun hwhole v hv => ?_⟩
  rw [hv, ← decodeValue_toNat, ← canonReject_iff, Bool.not_eq_true]
  refine ⟨exec_vdec_nonCanonical hb hwhole, fun hc => ⟨BitVec.isLt _, ?_⟩⟩
  rw [BitVec.ofNat_toNat, BitVec.setWidth_eq]
  exact exec_vdec_ok hb hwhole hc

/-- Settles O21: each of VDEC's three results is a completion. -/
theorem vdecIsTotal : Obligations.VdecIsTotal := by
  intro B a s hb
  refine ⟨_, exec_vdec hb, rfl, rfl, rfl, ?_⟩
  obtain h | h | ⟨v, h⟩ := vdecResults_cases B a <;> rw [h]
  · exact ⟨.inr (.inl rfl), iff_of_false nofun nofun⟩
  · exact ⟨.inr (.inr rfl), iff_of_false nofun nofun⟩
  · exact ⟨.inl rfl, iff_of_true rfl rfl⟩

/-! ## The lanes after an encoding -/

/-- VDEC of a whole encoding depends on the encoding's own lanes alone (R65). -/
theorem vdecResults_congr_encoding {B B' : Lanes} {a a' : BitVec 4}
    (h : ∀ i < tz8 (lane B 0) + 1, lane B' i = lane B i)
    (ha : tz8 (lane B 0) + 1 ≤ availEff a) (ha' : tz8 (lane B 0) + 1 ≤ availEff a') :
    vdecResults B' a' = vdecResults B a := by
  have hlane := h 0 (Nat.succ_pos _)
  rw [vdecResults_whole (B := B') (hlane.symm ▸ ha'), vdecResults_whole ha, hlane, decodeValue_congr (tz8_le _) h]

/-- Settles O19: the results of the two inputs are the same, whatever the state then makes of them. -/
theorem vdecIgnoresLanesAfterTheEncoding : Obligations.VdecIgnoresLanesAfterTheEncoding := by
  intro B B' a a' s h ha ha'
  rw [exec_eq_issue, exec_eq_issue, resultsOf, resultsOf, vdecResults_congr_encoding h ha ha']

end Sys2Proof.Machine

/-! # HOST_READ -/

namespace Sys2Proof.Machine

/-! ## The parts of R71's procedure -/

/-- A HOST_READ line is its procedure, and then the next line (R55). -/
theorem stepWith_hostRead {lat : BitVec 3 → Nat} {free : Nat → Option Byte} {s : State} {k : Nat}
    (hc : currentStmt s = some (.hostRead k)) :
    stepWith lat free s = andThen (hostReadStmt free k s) fun t => .next (advance t) := by
  rw [stepWith_at hc]
  rfl

theorem hostReadDecode_idle {bs : List Byte} {s : State} (hb : s.block.busy = false) :
    hostReadDecode bs s =
      .next (afterCommand { s with block := (vdecResults (lanesOf bs) (BitVec.ofNat 4 bs.length)).toBlock }) := by
  rw [hostReadDecode, hostCommand_idle hb, decodeRecord_vdec, resultsOf]

section
variable {free : Nat → Option Byte} {k : Nat} {s : State}

/-- R71, R73: an EOF at the first read, no command issued. -/
theorem hostReadStmt_endOfInput {h : HostSide} (hread : hostMemRead free k s.host = some (none, h)) :
    hostReadStmt free k s = .next (setHostResult .endOfInput none { s with host := h }) := by
  simp only [hostReadStmt, hread]

/-- R71: after a first byte, VDECLEN (whose OK the host copies to ST) gives the number of bytes to read, the tag of the
first one; an EOF among these is UNEXPECTED_END_OF_INPUT (R72), and VDEC decodes the bytes otherwise. -/
theorem hostReadStmt_firstByte {b0 : Byte} {h h' : HostSide} {o : Option (List Byte)} {n : Nat}
    (hb : s.block.busy = false) (hfirst : hostMemRead free k s.host = some (some b0, h))
    (hn : tz8 b0 = n)
    (hrest : readBytes free k n { h with st := some 0#3, hv := none } = some (o, h')) :
    hostReadStmt free k s = .next (o.elim
      (setHostResult .unexpectedEndOfInput none { block := (vdeclenResults b0).toBlock, host := h' })
      fun bs => afterCommand
        { block := (vdecResults (lanesOf (b0 :: bs)) (BitVec.ofNat 4 (bs.length + 1))).toBlock, host := h' }) := by
  subst hn
  have hvdeclen : hostCommand (packRecord 0b010#3 0#64 (lanesOf [b0]) 0#4) { s with host := h } =
      .next { block := (vdeclenResults b0).toBlock, host := { h with st := some 0#3, hv := none } } := by
    rw [hostCommand_idle (s := { s with host := h }) hb, decodeRecord_vdeclen, lane_lanesOf_singleton]
    rfl
  have hresLen : readResult (vdeclenResults b0).toBlock (vdeclenResults b0).toBlock.resLen =
      .ok (BitVec.ofNat 4 (tz8 b0 + 1)) := readResult_some rfl rfl
  simp only [hostReadStmt, hfirst, hostReadRest, hvdeclen, andThen_next, hresLen, withRead_ok,
    ofNat4_toNat (tz8_le b0), Nat.add_sub_cancel, hrest]
  cases o with
  | none => rfl
  | some bs => exact hostReadDecode_idle rfl

end

/-! ## A source that has not ended -/

/-- Settles O44: the first read answers EOF. -/
theorem hostReadOfExhaustedSourceIsEndOfInput : Obligations.HostReadOfExhaustedSourceIsEndOfInput := by
  intro s k src hc hs hd he
  rw [step, stepWith_hostRead hc, hostReadStmt_endOfInput (hostMemRead_eof _ k _ src hs he hd), andThen_next]
  rfl

/-- R71: the reads after the first byte of a source, `h` the host before that byte. -/
theorem readBytes_afterFirstByte {free : Nat → Option Byte} {h : HostSide} {k : Nat} {src : ByteSource} {bs : List Byte}
    (hs : h.sources[k]? = some src) (he : src.ended = false) (n : Nat) (st : Option (BitVec 3)) (hv : Option U64) :
    readBytes free k n { h with
        st := st, hv := hv,
        sources := h.sources.set k { src with data := bs, consumed := src.consumed + 1 } } =
      if n ≤ bs.length then
        some (some (bs.take n), { h with
          st := st, hv := hv,
          sources := h.sources.set k { src with data := bs.drop n, consumed := src.consumed + (n + 1) } })
      else
        some (none, { h with
          st := st, hv := hv,
          sources := h.sources.set k { data := [], consumed := src.consumed + bs.length + 1, ended := true } }) := by
  have hk : k < h.sources.length := (List.getElem?_eq_some_iff.1 hs).1
  rw [readBytes_live free k n _ { src with data := bs, consumed := src.consumed + 1 } (List.getElem?_set_self hk) he]
  simp only [List.set_set, Nat.add_assoc, Nat.add_comm 1]

/-- Settles O45: an EOF among the bytes after the first. -/
theorem hostReadCutShortIsUnexpectedEndOfInput : Obligations.HostReadCutShortIsUnexpectedEndOfInput := by
  intro s k src b0 bs hb hc hs hd he hcut
  have hrest := readBytes_afterFirstByte (free := Config.freeRead) (bs := bs) hs he (tz8 b0) (some 0#3) none
  rw [if_neg (Nat.not_le.2 hcut)] at hrest
  rw [step, stepWith_hostRead hc, hostReadStmt_firstByte hb (hostMemRead_byte _ k _ src b0 bs hs he hd) rfl hrest,
    andThen_next]
  rfl

/-- VDEC of all the lanes its first one asks for is never truncated (R86). -/
theorem vdecResults_whole_status {B : Lanes} {a : BitVec 4} (h : tz8 (lane B 0) + 1 ≤ availEff a) :
    (vdecResults B a).toBlock.resStatus ≠ some 1#3 := by
  rw [vdecResults_whole h]
  split <;> exact nofun

/-- Settles O46: VDEC gets the tag's length as its avail, so its input is whole. -/
theorem hostReadOfWholeEncodingDecodesIt : Obligations.HostReadOfWholeEncodingDecodesIt := by
  intro s k src b0 bs hb hc hs hd he hwhole
  have hle := tz8_le b0
  have hlen : (b0 :: bs.take (tz8 b0)).length = tz8 b0 + 1 := by
    rw [List.length_cons, List.length_take, Nat.min_eq_left hwhole]
  have hlane : lane (lanesOf (b0 :: bs.take (tz8 b0))) 0 = b0 := lane_lanesOf _ (by omega) 0
  refine ⟨_, exec_vdec hb, vdecResults_whole_status ?_, ?_⟩
  · rw [hlane, availEff, ofNat4_toNat hle]
    omega
  · have hrest := readBytes_afterFirstByte (free := Config.freeRead) (bs := bs) hs he (tz8 b0) (some 0#3) none
    rw [if_pos hwhole] at hrest
    rw [step, stepWith_hostRead hc, hostReadStmt_firstByte hb (hostMemRead_byte _ k _ src b0 bs hs he hd) rfl hrest,
      andThen_next, Option.elim_some, List.length_take, Nat.min_eq_left hwhole]
    -- VDEC's results stay opaque to the definitional comparison.
    generalize vdecResults (lanesOf (b0 :: bs.take (tz8 b0))) (BitVec.ofNat 4 (tz8 b0 + 1)) = r
    rfl

/-! ## A source that holds an encoding -/

/-- Settles O47: the bytes read are the lanes of `VENC v`, as many as their tag asks for. -/
theorem hostReadOfEncodedValueGivesTheValue : Obligations.HostReadOfEncodedValueGivesTheValue := by
  intro v s u k src B L rest hvenc hb hc hs he hd
  obtain ⟨-, hu⟩ := exec_next hvenc
  have hB : B = encodeLanes v (ntag v) := Option.some.inj (congrArg (·.block.resBytes) hu)
  have hL : L = BitVec.ofNat 4 (ntag v + 1) := Option.some.inj (congrArg (·.block.resLen) hu)
  have hle := ntag_le v
  rw [hB, hL, ofNat4_toNat hle] at hd
  rw [hL, ofNat4_toNat hle]
  obtain ⟨hlen, hbytes, hrest⟩ := eq_lanes_append_iff.1 hd
  cases hdata : src.data with
  | nil => rw [hdata] at hlen; simp at hlen
  | cons b0 bs =>
    rw [hdata] at hlen hbytes hrest
    have htag : tz8 b0 = ntag v := (congrArg tz8 (hbytes 0 (Nat.succ_pos _))).trans (tz8_encodeLanes v)
    have hbs : ntag v ≤ bs.length := Nat.le_of_succ_le_succ hlen
    obtain ⟨t, ht, -, hstep⟩ := hostReadOfWholeEncodingDecodesIt s k src b0 bs hb hc hs hdata he (htag.symm ▸ hbs)
    rw [htag] at ht hstep
    have hlanes : ∀ i < ntag v + 1, lane (lanesOf (b0 :: bs.take (ntag v))) i = lane (encodeLanes v (ntag v)) i := by
      intro i hi
      rw [← List.take_succ_cons, lane_lanesOf _ (by rw [List.length_take]; omega), List.getD_eq_getElem?_getD,
        List.getElem?_take_of_lt hi, ← List.getD_eq_getElem?_getD, hbytes i hi]
    rw [exec_vdec_encoding hb hlanes (ofNat4_toNat hle).ge] at ht
    cases ht
    rw [hstep, ← hrest, List.drop_succ_cons]
    rfl

/-! ## The end state after a last HOST_READ -/

/-- R110: where the next line is none or HALT, the host there with no command in flight is at the end state. -/
theorem endState_atLastLine {s t : State}
    (hnext : (s.host.script[s.host.hpc + 1]?).map Line.stmt = none ∨
      (s.host.script[s.host.hpc + 1]?).map Line.stmt = some .halt)
    (hscript : t.host.script = s.host.script) (hhpc : t.host.hpc = s.host.hpc + 1) (hb : t.block.busy = false) :
    t.endState = some {
      resValue := t.block.resValue, resBytes := t.block.resBytes, resLen := t.block.resLen,
      resStatus := t.block.resStatus, resValid := t.block.resValid, busy := false,
      st := t.host.st, hv := t.host.hv, consumed := t.host.sources.map ByteSource.consumed } := by
  have hended : t.ended = true := by
    rw [State.ended, currentStmt, hscript, hhpc]
    obtain h | h := hnext <;> rw [h] <;> rfl
  rw [State.endState, hended, hb]
  rfl

/-- The count of an exhausted source is not changed by its EOF. -/
theorem map_consumed_set_ended {sources : List ByteSource} {k : Nat} {src : ByteSource} (hs : sources[k]? = some src) :
    (sources.set k { src with ended := true }).map ByteSource.consumed = sources.map ByteSource.consumed := by
  obtain ⟨hk, rfl⟩ := List.getElem?_eq_some_iff.1 hs
  have hcount : sources[k].consumed = (sources.map ByteSource.consumed)[k]'(by simpa using hk) := by simp
  rw [List.map_set, hcount, List.set_getElem_self]

/-- A VDEC that has completed has written neither RES_BYTES nor RES_LEN (R23); RES_VALID is 1 and BUSY 0 (R102). -/
theorem exec_vdec_next {B : Lanes} {a : BitVec 4} {s t : State} (h : exec (.vdec B a) s = .next t) :
    t.block.resBytes = none ∧ t.block.resLen = none ∧ t.block.resValid = true ∧ t.block.busy = false := by
  obtain ⟨hb, -⟩ := exec_next h
  rw [exec_vdec hb] at h
  obtain hr | hr | ⟨v, hr⟩ := vdecResults_cases B a <;> rw [hr] at h <;> cases h <;> exact ⟨rfl, rfl, rfl, rfl⟩

/-- Settles O58: the step of each of HOST_READ's outcomes reaches the script's end. -/
theorem endStateHoldsRegistersHostValuesAndBytesConsumed :
    Obligations.EndStateHoldsRegistersHostValuesAndBytesConsumed := by
  intro s k src hb hc hnext hs he
  cases hd : src.data with
  | nil =>
    refine ⟨_, hostReadOfExhaustedSourceIsEndOfInput s k src hc hs hd he, _, endState_atLastLine hnext rfl rfl hb, rfl,
      fun _ => ?_, nofun, nofun⟩
    exact ⟨rfl, rfl, rfl, rfl, rfl, rfl, rfl, map_consumed_set_ended hs⟩
  | cons b0 bs =>
    by_cases hcut : bs.length < tz8 b0
    · refine ⟨_, hostReadCutShortIsUnexpectedEndOfInput s k src b0 bs hb hc hs hd he hcut, _,
        endState_atLastLine hnext rfl rfl rfl, rfl, nofun, ?_, ?_⟩
      · rintro _ _ ⟨⟩ -
        exact ⟨rfl, rfl, rfl, rfl, rfl, rfl, rfl, List.map_set⟩
      · rintro _ _ ⟨⟩ hwhole
        exact absurd hcut (Nat.not_lt.2 hwhole)
    · obtain ⟨u, hu, -, hstep⟩ := hostReadOfWholeEncodingDecodesIt s k src b0 bs hb hc hs hd he (Nat.le_of_not_lt hcut)
      obtain ⟨hbytes, hlen, hvalid, hbusy⟩ := exec_vdec_next hu
      refine ⟨_, hstep, _, endState_atLastLine hnext rfl rfl hbusy, rfl, nofun, ?_, ?_⟩
      · rintro _ _ ⟨⟩ hshort
        exact absurd hshort hcut
      · rintro _ _ ⟨⟩ -
        exact ⟨u, hu, rfl, hbytes, hlen, rfl, hvalid, rfl, rfl, List.map_set⟩

/-! ## A source that has ended -/

/-- A source's answers after its EOF: one byte at draw `d`, and EOF at every other. -/
def byteAtDraw (d : Nat) (b : Byte) (n : Nat) : Option Byte := if n = d then some b else none

/-- After its EOF a source may deliver a byte, which is consumed, and EOF again at the draw after it. -/
theorem hostMemRead_byteAtDraw {h : HostSide} {k : Nat} {src : ByteSource} {b : Byte} (hs : h.sources[k]? = some src)
    (he : src.ended = true) :
    hostMemRead (byteAtDraw h.draws b) k h = some (some b, { h with
      sources := h.sources.set k { src with consumed := src.consumed + 1 }, draws := h.draws + 1 }) := by
  rw [hostMemRead_ended _ k h src hs he, byteAtDraw, if_pos rfl]

theorem hostMemRead_endedAgain {free : Nat → Option Byte} {h : HostSide} {k : Nat} {src : ByteSource}
    (hs : h.sources[k]? = some src) (he : src.ended = true) (hfree : free h.draws = none) :
    ∃ h', hostMemRead free k h = some (none, h') :=
  ⟨_, by rw [hostMemRead_ended _ k h src hs he, hfree]⟩

theorem readBytes_endOfInput {free : Nat → Option Byte} {k n : Nat} {h h' : HostSide}
    (hread : hostMemRead free k h = some (none, h')) : readBytes free k (n + 1) h = some (none, h') := by
  simp only [readBytes, hread]

/-- Settles O48: the source answers EOF; or the byte `0x01`, which is the whole encoding of 0; or `0x02`, the first of two
bytes, and then EOF. -/
theorem readAfterEofIsTheSourcesOwn : Obligations.ReadAfterEofIsTheSourcesOwn := by
  intro lat s k src hb hc hs he
  have hk : k < s.host.sources.length := (List.getElem?_eq_some_iff.1 hs).1
  refine ⟨?_, ?_, ?_⟩
  · obtain ⟨h, hread⟩ := hostMemRead_endedAgain (free := fun _ => none) hs he rfl
    have hstep := stepWith_hostRead (lat := lat) (free := fun _ => none) hc
    rw [hostReadStmt_endOfInput hread, andThen_next] at hstep
    exact ⟨_, _, hstep, rfl⟩
  · have hzero : vdecResults (lanesOf [0x01#8]) (BitVec.ofNat 4 (([] : List Byte).length + 1)) =
        { status := .ok, value := some 0#64 } := by decide
    have hstep := stepWith_hostRead (lat := lat) (free := byteAtDraw s.host.draws 0x01#8) hc
    rw [hostReadStmt_firstByte hb (hostMemRead_byteAtDraw hs he) (n := 0) (by decide) rfl, andThen_next,
      Option.elim_some, hzero] at hstep
    exact ⟨_, _, hstep, rfl, rfl⟩
  · obtain ⟨h, hread⟩ := hostMemRead_endedAgain (k := k) (free := byteAtDraw s.host.draws 0x02#8)
      (h := { s.host with
        st := some 0#3, hv := none,
        sources := s.host.sources.set k { src with consumed := src.consumed + 1 }, draws := s.host.draws + 1 })
      (List.getElem?_set_self hk) he (if_neg (Nat.succ_ne_self _))
    have hstep := stepWith_hostRead (lat := lat) (free := byteAtDraw s.host.draws 0x02#8) hc
    rw [hostReadStmt_firstByte hb (hostMemRead_byteAtDraw hs he) (by decide) (readBytes_endOfInput (n := 0) hread),
      andThen_next] at hstep
    exact ⟨_, _, hstep, rfl⟩

end Sys2Proof.Machine

/-! # The canonical validator (spec/42_canonical_validator.md) -/

namespace Sys2Proof.Machine

/-! ## VCHECK's two outcomes (R75) -/

section Vcheck
variable {b0 : Byte} {v : U64} {s : State} (hb : s.block.busy = false)
include hb

theorem exec_vcheck_rejected (hc : canonReject b0 v = true) :
    exec (.vcheck b0 v) s = .next { s with block := Block.completed none none none 2#3 } := by
  rw [exec_idle _ hb, resultsOf, vcheckResults, if_pos hc]
  rfl

theorem exec_vcheck_accepted (hc : canonReject b0 v = false) :
    exec (.vcheck b0 v) s = .next { s with block := Block.completed none none none 0#3 } := by
  rw [exec_idle _ hb, resultsOf, vcheckResults, if_neg (Bool.eq_false_iff.1 hc)]
  rfl

end Vcheck

/-- Settles O26, by the threshold form of the canonical-form test. -/
theorem vcheckComparesWithItsTagsThreshold : Obligations.VcheckComparesWithItsTagsThreshold := by
  intro b0 v s hb
  by_cases hbelow : tz8 b0 ≠ 0 ∧ v.toNat < 2 ^ (7 * tz8 b0)
  · rw [if_pos hbelow]
    exact exec_vcheck_rejected hb ((canonReject_iff b0 v).2 hbelow)
  · rw [if_neg hbelow]
    exact exec_vcheck_accepted hb (Bool.eq_false_iff.2 (mt (canonReject_iff b0 v).1 hbelow))

/-! ## VDEC and VCHECK report one status (R77) -/

/-- Settles O27: both commands branch on the same test of the same operands. -/
theorem vdecAndVcheckAgree : Obligations.VdecAndVcheckAgree := by
  intro B a s s' hb hb' hwhole
  cases hc : canonReject (lane B 0) (decodeValue B (tz8 (lane B 0))) with
  | true =>
    exact ⟨_, _, exec_vdec_nonCanonical hb hwhole hc, exec_vcheck_rejected hb' hc, rfl, nofun, .inr rfl⟩
  | false =>
    exact ⟨_, _, exec_vdec_ok hb hwhole hc, exec_vcheck_accepted hb' hc, rfl, fun _ => rfl, .inl rfl⟩

/-! ## The minimal tag is the one accepted (R78) -/

/-- The minimal tag is 0, or its threshold is at most the value. -/
theorem canonReject_minimalTag {b0 : Byte} {v : U64} (h : tz8 b0 = ntag v) : canonReject b0 v = false := by
  rw [Bool.eq_false_iff, Ne, canonReject_iff, h]
  rintro ⟨hpos, hlt⟩
  exact hlt.not_ge (ntag_minimal v (Nat.pos_of_ne_zero hpos))

/-- Settles O28: a tag whose form holds the value is accepted where it is minimal, and an accepted one is minimal. -/
theorem vcheckAcceptsExactlyTheMinimalTag : Obligations.VcheckAcceptsExactlyTheMinimalTag := by
  intro b0 v s hb hholds
  by_cases hmin : tz8 b0 = ntag v
  · rw [if_pos hmin]
    exact exec_vcheck_accepted hb (canonReject_minimalTag hmin)
  · rw [if_neg hmin]
    refine exec_vcheck_rejected hb (Bool.eq_true_of_not_eq_false fun hc => hmin ?_)
    exact (ntag_of_accepted hc fun hlt => hholds.resolve_left hlt.ne).symm

end Sys2Proof.Machine

/-! # The zigzag coder (spec/43_zigzag.md) -/

namespace Sys2Proof.Machine

/-! ## The commands ZZENC and ZZDEC -/

section Zigzag
variable {s : State} (hb : s.block.busy = false)
include hb

theorem exec_zzenc (v : U64) :
    exec (.zzenc v) s = .next { s with block := Block.completed (some (zigzag v)) none none 0#3 } := exec_idle _ hb

theorem exec_zzdec (u : U64) :
    exec (.zzdec u) s = .next { s with block := Block.completed (some (unzigzag u)) none none 0#3 } := exec_idle _ hb

end Zigzag

/-- Settles O29: `zigzag` is R79's formula. -/
theorem zzencWritesItsFormula : Obligations.ZzencWritesItsFormula := fun v _ hb => exec_zzenc hb v

/-- Settles O31: `unzigzag` is R81's formula. -/
theorem zzdecWritesItsFormula : Obligations.ZzdecWritesItsFormula := fun u _ hb => exec_zzdec hb u

/-! ## ZZENC on integers (R80) -/

/-- R80's derivation: the mask is 0 for a non-negative value, and doubling does not wrap. -/
theorem zigzag_toNat_of_nonneg {v : U64} (h : 0 ≤ v.toInt) : ((zigzag v).toNat : Int) = 2 * v.toInt := by
  have hmsb : v.msb = false := by rw [BitVec.msb_eq_toInt, decide_eq_false (by omega)]
  have hz : zigzag v = v <<< 1 := by rw [zigzag, sar_sixty_three, hmsb]; exact BitVec.xor_zero
  have hlt := BitVec.toInt_pos_iff.1 h
  rw [hz, BitVec.toNat_shiftLeft, Nat.shiftLeft_eq, BitVec.toInt_eq_toNat_of_msb hmsb]
  omega

/-- R80's derivation: the mask is all ones for a negative value, and the doubled pattern, which wraps once, is
complemented. -/
theorem zigzag_toNat_of_neg {v : U64} (h : v.toInt < 0) : ((zigzag v).toNat : Int) = -2 * v.toInt - 1 := by
  have hmsb : v.msb = true := by rw [BitVec.msb_eq_toInt, decide_eq_true h]
  have hz : zigzag v = ~~~(v <<< 1) := by rw [zigzag, sar_sixty_three, hmsb]; exact BitVec.xor_allOnes
  have hge := BitVec.toInt_neg_iff.1 h
  rw [hz, BitVec.toNat_not, BitVec.toNat_shiftLeft, Nat.shiftLeft_eq, BitVec.toInt_eq_msb_cond, if_pos hmsb]
  omega

/-- Settles O30: the mask of R79 is 0 or all ones by the sign. -/
theorem zzencMapsSignedToUnsigned : Obligations.ZzencMapsSignedToUnsigned := fun v _ hb =>
  ⟨zigzag v, exec_zzenc hb v, zigzag_toNat_of_nonneg, zigzag_toNat_of_neg⟩

/-! ## The inverse laws (R83) -/

/-- A left inverse between sets of one finite size is two-sided. -/
theorem zigzag_unzigzag (u : U64) : zigzag (unzigzag u) = u :=
  Function.LeftInverse.rightInverse_of_card_le unzigzag_zigzag le_rfl u

/-- Settles O33: each formula undoes the other. -/
theorem zigzagCommandsAreInverse : Obligations.ZigzagCommandsAreInverse := by
  intro x s s' hb hb'
  have hdec := exec_zzdec hb' (zigzag x)
  have henc := exec_zzenc hb' (unzigzag x)
  rw [unzigzag_zigzag] at hdec
  rw [zigzag_unzigzag] at henc
  exact ⟨⟨zigzag x, exec_zzenc hb x, hdec⟩, ⟨unzigzag x, exec_zzdec hb x, henc⟩⟩

/-! ## ZZDEC on integers (R82) -/

/-- R80 read backwards through R83: a pattern is twice what it decodes to, or the odd number of a negative value. -/
theorem toNat_of_unzigzag (u : U64) :
    (u.toNat : Int) = 2 * (unzigzag u).toInt ∨ (u.toNat : Int) = -2 * (unzigzag u).toInt - 1 := by
  have hnonneg := zigzag_toNat_of_nonneg (v := unzigzag u)
  have hneg := zigzag_toNat_of_neg (v := unzigzag u)
  rw [zigzag_unzigzag] at hnonneg hneg
  exact (le_or_gt 0 (unzigzag u).toInt).imp hnonneg hneg

theorem unzigzag_toInt_of_even {u : U64} (h : u.toNat % 2 = 0) : (unzigzag u).toInt = (u.toNat / 2 : Nat) := by
  obtain hu | hu := toNat_of_unzigzag u <;> omega

theorem unzigzag_toInt_of_odd {u : U64} (h : u.toNat % 2 = 1) :
    (unzigzag u).toInt = -((u.toNat + 1) / 2 : Nat) := by
  obtain hu | hu := toNat_of_unzigzag u <;> omega

/-- Settles O32: the parity of the pattern is the sign of the value it decodes to. -/
theorem zzdecMapsUnsignedToSigned : Obligations.ZzdecMapsUnsignedToSigned := fun u _ hb =>
  ⟨unzigzag u, exec_zzdec hb u, unzigzag_toInt_of_even, unzigzag_toInt_of_odd⟩

end Sys2Proof.Machine

/-! # The error model (spec/60_exceptions.md) -/

namespace Sys2Proof.Machine

/-- `raise` is the block's only form of exception (R11): a command ends with OK or with all that `raise` leaves. -/
theorem resultsOf_ok_or_raise (i : Instr) : (resultsOf i).status = .ok ∨ ∃ c, resultsOf i = raise c := by
  cases i with
  | vdec B a =>
    obtain h | h | ⟨w, h⟩ := vdecResults_cases B a
    · exact .inr ⟨_, h⟩
    · exact .inr ⟨_, h⟩
    · exact .inl (congrArg Results.status h)
  | vcheck b0 v =>
    obtain h | h := vcheckResults_cases b0 v
    · exact .inr ⟨_, h⟩
    · exact .inl (congrArg Results.status h)
  | reserved => exact .inr ⟨_, rfl⟩
  | venclen | venc | vdeclen | zzenc | zzdec => exact .inl rfl

/-- Settles O37: a status other than OK is `raise`'s, which writes no value, and a completed command leaves BUSY = 0. -/
theorem errorLeavesNoValueAndAcceptsTheNextCommand : Obligations.ErrorLeavesNoValueAndAcceptsTheNextCommand := by
  intro i s t hexec herror
  obtain ⟨-, rfl⟩ := exec_next hexec
  have haccepts : ∀ j : Instr, ∃ u, exec j { s with block := (resultsOf i).toBlock } = .next u :=
    fun j => ⟨_, exec_idle j rfl⟩
  obtain hok | ⟨c, hraise⟩ := resultsOf_ok_or_raise i
  · exact absurd (congrArg (some ∘ statusCode) hok) herror
  · exact ⟨congrArg Results.value hraise, congrArg Results.bytes hraise, congrArg Results.len hraise, rfl, haccepts⟩

end Sys2Proof.Machine

/-! # Reset and hazards (spec/70_reset_and_hazards.md) -/

namespace Sys2Proof.Machine

/-! ## One clock edge, by its ports -/

section Edge
variable {lat : BitVec 3 → Nat} {p : Ports} {s : State} (hrst : p.rst = false)
include hrst

theorem clockEdge_start (hstart : p.start = true) : clockEdge lat p s = startEdge lat p s := by
  simp [clockEdge, hrst, hstart]

theorem clockEdge_quiet (hstart : p.start = false) : clockEdge lat p s = tick s := by
  simp [clockEdge, hrst, hstart]

end Edge

/-! ## The issuing edge (R102, R104) -/

theorem startEdge_busy {lat : BitVec 3 → Nat} {p : Ports} {s : State} (hb : s.block.busy = true) :
    startEdge lat p s = .fault .protocolViolation := by simp [startEdge, hb]

theorem exec_busy (i : Instr) {s : State} (hb : s.block.busy = true) : exec i s = .fault .protocolViolation := by
  rw [exec_eq_issue, issue_busy hb]

/-- Settles O2: the issue of a command tests BUSY first, at an edge as in one atomic step. -/
theorem startWhileBusyIsProtocolViolation : Obligations.StartWhileBusyIsProtocolViolation :=
  ⟨fun _ _ _ hrst hstart hb => (clockEdge_start hrst hstart).trans (startEdge_busy hb), fun i _ => exec_busy i⟩

section Issue
variable {lat : BitVec 3 → Nat} {p : Ports} {s : State} (hb : s.block.busy = false)
include hb

theorem startEdge_latency_zero (h : lat p.op = 0) : startEdge lat p s = exec (decodeRecord p.record) s := by
  simp [startEdge, hb, h]

theorem startEdge_latency_pos (h : 0 < lat p.op) :
    startEdge lat p s = .next { s with block := { s.block with
      resValid := false, busy := true, inflight := some { record := p.record, remaining := lat p.op } } } := by
  obtain ⟨n, hn⟩ := Nat.exists_eq_add_one.2 h
  simp [startEdge, hb, hn]

end Issue

/-! ## Edges that neither reset nor start -/

@[simp] theorem State.withInFlight_host (s : State) (f : InFlight) : (s.withInFlight f).host = s.host := rfl

/-- With nothing in flight such edges change nothing. -/
theorem clockEdges_quiet_idle {lat : BitVec 3 → Nat} {qs : List Ports} {s : State}
    (hq : ∀ q ∈ qs, q.rst = false ∧ q.start = false) (hb : s.block.busy = false) :
    clockEdges lat qs s = .next s := by
  induction qs with
  | nil => rfl
  | cons q qs ih =>
    obtain ⟨⟨hrst, hstart⟩, hqs⟩ := List.forall_mem_cons.1 hq
    rw [clockEdges, clockEdge_quiet hrst hstart, tick_idle hb, andThen_next, ih hqs]

/-- Each such edge takes one cycle from the command in flight, the last of its cycles completes it, and the edges after
that change nothing (R102). -/
theorem clockEdges_quiet_inFlight {lat : BitVec 3 → Nat} {qs : List Ports} {s : State} {f : InFlight}
    (hq : ∀ q ∈ qs, q.rst = false ∧ q.start = false) (hb : s.block.busy = true) (hf : s.block.inflight = some f)
    (hpos : 0 < f.remaining) :
    clockEdges lat qs s = .next (if qs.length < f.remaining
      then s.withInFlight { f with remaining := f.remaining - qs.length }
      else { s with block := (resultsOf (decodeRecord f.record)).toBlock }) := by
  induction qs generalizing s f with
  | nil => rw [List.length_nil, if_pos hpos, Nat.sub_zero, State.withInFlight, ← hf]; rfl
  | cons q qs ih =>
    obtain ⟨⟨hrst, hstart⟩, hqs⟩ := List.forall_mem_cons.1 hq
    rw [clockEdges, clockEdge_quiet hrst hstart, List.length_cons]
    by_cases hlast : f.remaining ≤ 1
    · rw [tick_completes hb hf hlast, andThen_next, clockEdges_quiet_idle hqs (toBlock_busy _), if_neg (by omega)]
    · rw [tick_inFlight hb hf (by omega), andThen_next,
        ih hqs ((s.withInFlight_busy _).trans hb) (s.withInFlight_inflight _) (Nat.sub_pos_of_lt (by omega)),
        State.withInFlight_withInFlight]
      simp only [Nat.sub_sub, Nat.add_comm 1, Nat.lt_sub_iff_add_lt, State.withInFlight_host]

/-! ## The clocked protocol and the atomic command (R102, R105) -/

/-- Settles O3: with LATENCY 0 the issuing edge is the atomic command itself, and otherwise it puts the command in flight,
which the later edges bring to its completion. -/
theorem clockedCommandRefinesAtomicCommand : Obligations.ClockedCommandRefinesAtomicCommand := by
  intro lat p qs s hb hrst hstart hq
  rw [clockEdges, clockEdge_start hrst hstart]
  obtain hlat | hlat := Nat.eq_zero_or_pos (lat p.op)
  · rw [startEdge_latency_zero hb hlat, exec_idle _ hb, andThen_next, clockEdges_quiet_idle hq (toBlock_busy _)]
    exact ⟨fun hlt => by omega, fun _ => rfl⟩
  · rw [startEdge_latency_pos hb hlat, andThen_next, clockEdges_quiet_inFlight hq rfl rfl hlat]
    exact ⟨fun hlt => by rw [if_pos hlt]; rfl, fun hle => by rw [if_neg hle.not_gt, exec_idle _ hb]⟩

/-! ## The end of a script (R110) -/

/-- Settles O43: a step there is an edge at which nothing is asked of the block. -/
theorem endedScriptChangesNothing : Obligations.EndedScriptChangesNothing :=
  fun _ hended hb => (step_ended hended).trans (tick_idle hb)

end Sys2Proof.Machine
